-- ==== Sys2Proof/Word.lean ====
section
/-! DEFINITION. The word types of IPB-CFS (00_scope.md R11, R14): bytes, the 16-bit checksum register,
32-bit registers and command words, 12-bit host byte addresses. -/

namespace Sys2Proof

/-- One byte of a frame, of a buffer or of a command word's operand fields (00_scope.md R10, 30_encoding.md R91). -/
abbrev Byte := BitVec 8

/-- The 16-bit checksum register (40_checksum.md R120). -/
abbrev Half := BitVec 16

/-- A host register and a command word, 32 bits (10_state.md R22, 30_encoding.md R90). -/
abbrev Word := BitVec 32

/-- A host byte address within the window, `ADDR_W` = 12 bits (20_memory.md R60). -/
abbrev HostAddr := BitVec 12

end Sys2Proof
end

