-- ==== Sys2Proof/Syntax.lean ====
section
/-! DEFINITION. The commands of IPB-CFS: one constructor per row of the opcode table (30_encoding.md R98).
The fields a command ignores (R99) are no part of it. -/

namespace Sys2Proof

/-- The eight commands (30_encoding.md R98). Their operands are unsigned bytes used as they stand (R91). -/
inductive Instr where
  /-- `NOP` (43_control.md R200). -/
  | nop
  /-- `CK_INIT` (40_checksum.md R124). -/
  | ckInit
  /-- `CK_FEED b`, `b` = field `A` (40_checksum.md R125). -/
  | ckFeed (b : Byte)
  /-- `TX_FRAME t, N`, `t` = field `A`, `N` = field `B` (41_framer.md R140). -/
  | txFrame (t n : Byte)
  /-- `RX_POP` (42_synchronizer.md R180). -/
  | rxPop
  /-- `RX_FLUSH` (42_synchronizer.md R181). -/
  | rxFlush
  /-- `ERR_CLR` (43_control.md R202). -/
  | errClr
  /-- `ST_CLR` (43_control.md R203). -/
  | stClr
deriving DecidableEq, Repr

end Sys2Proof
end

