-- ==== Sys2Proof/Decode.lean ====
section
/-! DEFINITION. Command words (30_encoding.md R90, R91, R98 to R100): a decoder total on every 32-bit word,
which rejects an undefined opcode by name, and the encoder of R103. -/

namespace Sys2Proof

/-- Why a command word is no command: its `OP` is one of the 248 undefined values (30_encoding.md R100). -/
inductive DecodeError where
  | illegalOpcode (op : Byte)
deriving DecidableEq, Repr

/-- `OP`, bits 31:24 (30_encoding.md R90). -/
def opField (w : Word) : Byte := w.extractLsb' 24 8

/-- `A`, bits 23:16 (30_encoding.md R90). -/
def aField (w : Word) : Byte := w.extractLsb' 16 8

/-- `B`, bits 15:8 (30_encoding.md R90). -/
def bField (w : Word) : Byte := w.extractLsb' 8 8

/-- A word selects a command by `OP` alone (30_encoding.md R98); the fields it does not use are ignored (R99). -/
def decode (w : Word) : Except DecodeError Instr :=
  match (opField w).toNat with
  | 0x00 => .ok .nop
  | 0x01 => .ok .ckInit
  | 0x02 => .ok (.ckFeed (aField w))
  | 0x10 => .ok (.txFrame (aField w) (bField w))
  | 0x20 => .ok .rxPop
  | 0x21 => .ok .rxFlush
  | 0x30 => .ok .errClr
  | 0x31 => .ok .stClr
  | _ => .error (.illegalOpcode (opField w))

/-- A word of the one format of 30_encoding.md R90, with `C` = 0. -/
def packWord (op a b : Byte) : Word :=
  op.setWidth 32 <<< 24 ||| a.setWidth 32 <<< 16 ||| b.setWidth 32 <<< 8

/-- The word of a command, 0 in every ignored field (30_encoding.md R99, R103). -/
def encode : Instr → Word
  | .nop => packWord 0x00 0 0
  | .ckInit => packWord 0x01 0 0
  | .ckFeed b => packWord 0x02 b 0
  | .txFrame t n => packWord 0x10 t n
  | .rxPop => packWord 0x20 0 0
  | .rxFlush => packWord 0x21 0 0
  | .errClr => packWord 0x30 0 0
  | .stClr => packWord 0x31 0 0

/-- The bits of a word that the command reads: `OP`, and the operand fields it uses (30_encoding.md R98). -/
def usedMask : Instr → Word
  | .ckFeed _ => 0xFFFF0000
  | .txFrame _ _ => 0xFFFFFF00
  | _ => 0xFF000000

/-- The command that the decoder reads from a table row's bits: a command is always one word
(30_encoding.md R90), and bits above `nbits` are 0. -/
def decodeTableWord (nbits w : Nat) : Option Instr :=
  (decode (BitVec.ofNat 32 (w % 2 ^ nbits))).toOption

end Sys2Proof
end

