-- ==== Sys2Proof/Config.lean ====
section
/-! DEFINITION. The parameters of 00_scope.md R7, each a named constant, and the free values: constants
without a body, of which no proof can know a value (93_implementation_defined.md I1, I3). -/

namespace Sys2Proof.Config

/-- `CK_POLY`: the source's `0x11021` with its x^16 term implicit (R7). -/
def ckPoly : Half := 0x1021

/-- `CK_INIT`, the initial value of the checksum register (R7). -/
def ckInitValue : Half := 0x1021

/-- `CK_XOROUT`, fixed at 0 for this hardware (R7, 93_implementation_defined.md I4). -/
def ckXorOut : Half := 0x0000

/-- `SOF`, the header start byte (R7, 30_encoding.md R94). -/
def sof : Byte := 0x4B

/-- `PROTO`, the protocol version byte (R7, 30_encoding.md R95). -/
def proto : Byte := 0x00

/-- `SYNC`, the resync sentinel (R7, 30_encoding.md R97). -/
def syncByte : Byte := 0x11

/-- `DST_RESET`, broadcast (R7). -/
def dstReset : Byte := 0xFF

/-- `MAX_PAYLOAD` (R7, 90_conflicts.md C3). -/
def maxPayload : Nat := 254

/-- `TXBUF_SIZE` and `RXBUF_SIZE` (R7). -/
def bufSize : Nat := 256

/-- `SRC_RESET`, the OPEN parameter of R7 (93_implementation_defined.md I3). Log 5. -/
opaque srcReset : Byte

/-- The draw that a buffer byte holds after a reset (10_state.md R32, R33; 93_implementation_defined.md I1):
`bufDraw k a` is the byte at host address `a` after the reset numbered `k`. Log 4. -/
opaque bufDraw : Nat → Nat → Byte

/-- What a buffer read gives in a state whose memory lacks the byte: no such state is reachable, and
no value is assumed in one. Log 4. -/
opaque noByte : Nat → Byte

end Sys2Proof.Config
end

