-- ==== Sys2Proof/Machine/State.lean ====
section
/-! DEFINITION. The state of IPB-CFS as plain data: the registers of 10_state.md R22 to R31, the two buffers
(R32, R33), the synchronizer's internal state (R40), the two line streams (R42), and, as the model's own, the
environment's schedule, the host's pending operations, the host port's last answer and the counter of resets. -/

namespace Sys2Proof.Machine

/-- `CTRL` (10_state.md R24). Bits 31:4 are reserved and have no storage (R23). -/
structure Ctrl where
  rxEn : Bool
  seqInc : Bool
  rxie : Bool
  errie : Bool
deriving DecidableEq, Repr

/-- `STATUS.CMDERR_CODE` (10_state.md R25): the values 3 to 7 never occur and cannot be built
(93_implementation_defined.md I6). -/
inductive CmdErrCode where
  | none
  | payloadTooLarge
  | illegalCommand
deriving DecidableEq, Repr

/-- The stored fields of `STATUS` (10_state.md R25). `RX_STATE` is stored once, in `Sync`;
`RX_STOPPED` and `IRQ` are computed at every read. -/
structure Status where
  rxfValid : Bool
  herr : Bool
  berr : Bool
  lerr : Bool
  cmderr : Bool
  code : CmdErrCode
deriving DecidableEq, Repr

/-- `ADDR` (10_state.md R29). Bits 31:24 are reserved and have no storage (R23). -/
structure Addr where
  src : Byte
  dst : Byte
  seq : Byte
deriving DecidableEq, Repr

/-- `RXHDR` (10_state.md R30). -/
structure RxHdr where
  sof : Byte
  proto : Byte
  src : Byte
  dst : Byte
deriving DecidableEq, Repr

/-- `RXINFO` (10_state.md R31). Bits 31:24 are reserved and have no storage. -/
structure RxInfo where
  seq : Byte
  blen : Byte
  type : Byte
deriving DecidableEq, Repr

/-- `RX_STATE` (10_state.md R40). The value 3 never occurs and cannot be built (93_implementation_defined.md I6). -/
inductive RxState where
  | hunt
  | header
  | body
deriving DecidableEq, Repr

/-- The synchronizer's internal state (10_state.md R40). `hb` and `bb` are lists whose lengths are `HCNT`
and `BCNT`, as R40 allows (log 8). -/
structure Sync where
  state : RxState
  hb : List Byte
  bb : List Byte
  blen : Byte
deriving DecidableEq, Repr

/-- The kinds of receive error (60_exceptions.md R221). -/
inductive RxErrKind where
  | headerMismatch
  | bodyMismatch
  | emptyBody
deriving DecidableEq, Repr

/-- The named registers of the window (10_state.md R22). -/
inductive Reg where
  | ctrl
  | status
  | cmd
  | cksum
  | errcnt
  | addr
  | rxhdr
  | rxinfo
deriving DecidableEq, Repr

/-- The regions of the window (20_memory.md R60). -/
inductive Region where
  | registers
  | txbuf
  | rxbuf
  | reserved
deriving DecidableEq, Repr

/-- A host access: `MemRead(addr, n)` or `MemWrite(addr, n, v)` (00_scope.md R14). A legal write has `8n` at
most 32, so its value is held in a word (log 7). -/
inductive Access where
  | read (addr : HostAddr) (n : Nat)
  | write (addr : HostAddr) (n : Nat) (v : Word)
deriving DecidableEq, Repr

/-- One pending operation of the host. Beside plain accesses, the two host-side operations of
30_encoding.md R104 that depend on a value read. -/
inductive HostOp where
  /-- One access (00_scope.md R14). -/
  | access (a : Access)
  /-- `WAIT_RX`: `RD32 STATUS`, again until bit 0 of the value read is 1 (R104). -/
  | waitRx
  /-- The part of `RECV` from `RD32 RXINFO` on (R104). -/
  | recvInfo
deriving DecidableEq, Repr

/-- What the host port last answered. The model's own: it is how a read returns its value
(00_scope.md R14) and how a BusError is reported (60_exceptions.md R222). Log 3. -/
inductive Response where
  | none
  | data (n : Nat) (v : Word)
  | done
  | busError (addr : HostAddr)
deriving DecidableEq, Repr

/-- Whose atomic step is next (00_scope.md R19, 20_memory.md R74). Log 1. -/
inductive Turn where
  /-- The host performs its oldest pending operation. -/
  | host
  /-- The synchronizer takes one byte, if it has a step (42_synchronizer.md R161). -/
  | sync
  /-- The line appends a byte to the receive stream (10_state.md R42). -/
  | lineIn (b : Byte)
  /-- The line removes the oldest byte of the transmit stream (10_state.md R42). -/
  | lineOut
  /-- The reset input is asserted (70_reset_and_hazards.md R250). -/
  | reset
deriving DecidableEq, Repr

/-- The bytes of the window that are memory: `TXBUF` at `0x100` and `RXBUF` at `0x200`, each byte a cell of
its host address. -/
abbrev Memory := List Host.Cell

/-- The canonical form: exactly the addresses of the two buffers, strictly rising. An address that is not
listed holds no byte (20_memory.md R60), so no listed byte equals what an unlisted one reads as, and equal
memories are equal lists. Log 4. -/
def Memory.wf (m : Memory) : Bool := m.map Prod.fst == List.range' 0x100 (2 * Config.bufSize)

/-- The buffers after the reset numbered `k`: each byte a free draw (93_implementation_defined.md I1). Log 4. -/
def Memory.drawn (k : Nat) : Memory := (List.range' 0x100 (2 * Config.bufSize)).map fun a => (a, Config.bufDraw k a)

/-- Everything the spec gives the machine, and the model's own `host`, `schedule`, `resp` and `draws`. -/
structure State where
  ctrl : Ctrl
  status : Status
  ckAcc : Half
  errcnt : Word
  addr : Addr
  rxhdr : RxHdr
  rxinfo : RxInfo
  mem : Memory
  sync : Sync
  txs : List Byte
  rxs : List Byte
  host : List HostOp
  schedule : List Turn
  resp : Response
  draws : Nat
deriving DecidableEq, Repr

/-- Why a step faults. -/
inductive Fault where
  /-- Raised by the host's turn when its access is to a reserved address, or of an illegal width or
  alignment (20_memory.md R61, R62; 60_exceptions.md R222: "A model makes a BusError a fault of the host's
  access"). Safe: the hardware answers with an error response and goes on; here the run stops, and
  `stepPastBusError` is the step that goes on. -/
  | busError (addr : HostAddr)
deriving DecidableEq, Repr

/-- Why a step is refused. -/
inductive Refusal where
  /-- Raised by an arm of `exec` that has no meaning yet; no arm of this model raises it. Safe: the model
  stops where the hardware goes on. -/
  | notModelled (mnemonic : String)
deriving DecidableEq, Repr

/-- The machine right after reset (70_reset_and_hazards.md R250, R251), with empty streams, nothing
scheduled and nothing pending (logs 1 and 6). -/
def State.reset : State where
  ctrl := { rxEn := false, seqInc := false, rxie := false, errie := false }
  status := { rxfValid := false, herr := false, berr := false, lerr := false, cmderr := false, code := .none }
  ckAcc := 0x1021
  errcnt := 0
  addr := { src := Config.srcReset, dst := Config.dstReset, seq := 0x00 }
  rxhdr := { sof := 0, proto := 0, src := 0, dst := 0 }
  rxinfo := { seq := 0, blen := 0, type := 0 }
  mem := Memory.drawn 0
  sync := { state := .hunt, hb := [], bb := [], blen := 0 }
  txs := []
  rxs := []
  host := []
  schedule := []
  resp := .none
  draws := 0

/-! One named update per field. -/

def State.withCtrl (s : State) (v : Ctrl) : State := { s with ctrl := v }
def State.withStatus (s : State) (v : Status) : State := { s with status := v }
def State.withCkAcc (s : State) (v : Half) : State := { s with ckAcc := v }
def State.withErrcnt (s : State) (v : Word) : State := { s with errcnt := v }
def State.withAddr (s : State) (v : Addr) : State := { s with addr := v }
def State.withRxhdr (s : State) (v : RxHdr) : State := { s with rxhdr := v }
def State.withRxinfo (s : State) (v : RxInfo) : State := { s with rxinfo := v }
def State.withMem (s : State) (v : Memory) : State := { s with mem := v }
def State.withSync (s : State) (v : Sync) : State := { s with sync := v }
def State.withTxs (s : State) (v : List Byte) : State := { s with txs := v }
def State.withRxs (s : State) (v : List Byte) : State := { s with rxs := v }
def State.withHost (s : State) (v : List HostOp) : State := { s with host := v }
def State.withSchedule (s : State) (v : List Turn) : State := { s with schedule := v }
def State.withResp (s : State) (v : Response) : State := { s with resp := v }
def State.withDraws (s : State) (v : Nat) : State := { s with draws := v }

end Sys2Proof.Machine
end

