-- ==== Sys2Proof/Machine/Operands.lean ====
section
/-! DEFINITION. Bit fields and byte order: the big-endian 16-bit split of the wire (00_scope.md R12), the
little-endian byte lanes of a 4-byte buffer access (20_memory.md R64), and the register fields of 10_state.md
as 32-bit words and back. -/

namespace Sys2Proof.Machine

/-- `hi8(c) = c[15:8]` (00_scope.md R12). -/
def hi8 (c : Half) : Byte := c.extractLsb' 8 8

/-- `lo8(c) = c[7:0]` (00_scope.md R12). -/
def lo8 (c : Half) : Byte := c.extractLsb' 0 8

/-- `be16(a, b) = (a << 8) | b` (00_scope.md R12). -/
def be16 (a b : Byte) : Half := a.setWidth 16 <<< 8 ||| b.setWidth 16

/-- The byte `v[8j+7:8j]` (20_memory.md R64). -/
def lane (v : Word) (j : Nat) : Byte := v.extractLsb' (8 * j) 8

/-- A byte in a 32-bit word at byte position `j`. -/
def atLane (b : Byte) (j : Nat) : Word := b.setWidth 32 <<< (8 * j)

/-- Four bytes, lowest address first, as the value of a 4-byte access (20_memory.md R64). -/
def wordOfLanes (b0 b1 b2 b3 : Byte) : Word := atLane b0 0 ||| atLane b1 1 ||| atLane b2 2 ||| atLane b3 3

/-- The four lanes of a value, lowest address first (20_memory.md R64). -/
def lanesOfWord (v : Word) : List Byte := [lane v 0, lane v 1, lane v 2, lane v 3]

/-- A one-bit field at bit `i` of a register. -/
def bitAt (b : Bool) (i : Nat) : Word := (BitVec.ofBool b).setWidth 32 <<< i

/-- `CTRL` as the host reads it (10_state.md R24): reserved bits read 0. -/
def ctrlWord (c : Ctrl) : Word := bitAt c.rxEn 0 ||| bitAt c.seqInc 1 ||| bitAt c.rxie 2 ||| bitAt c.errie 3

/-- `CTRL` after a write of `v`; `v[31:4]` is ignored (43_control.md R201). -/
def ctrlOfWord (v : Word) : Ctrl where
  rxEn := v.getLsbD 0
  seqInc := v.getLsbD 1
  rxie := v.getLsbD 2
  errie := v.getLsbD 3

/-- `ADDR` as the host reads it (10_state.md R29). -/
def addrWord (a : Addr) : Word := atLane a.src 0 ||| atLane a.dst 1 ||| atLane a.seq 2

/-- `ADDR` after a write of `v`; `v[31:24]` is ignored (43_control.md R204). -/
def addrOfWord (v : Word) : Addr where
  src := lane v 0
  dst := lane v 1
  seq := lane v 2

/-- `RXHDR` as the host reads it (10_state.md R30). -/
def rxhdrWord (h : RxHdr) : Word := wordOfLanes h.sof h.proto h.src h.dst

/-- `RXINFO` as the host reads it (10_state.md R31). -/
def rxinfoWord (i : RxInfo) : Word := atLane i.seq 0 ||| atLane i.blen 1 ||| atLane i.type 2

/-- The encoding of `RX_STATE` in `STATUS` bits 2:1 (10_state.md R25). -/
def rxStateCode : RxState → Word
  | .hunt => 0
  | .header => 1
  | .body => 2

/-- The encoding of `CMDERR_CODE` in `STATUS` bits 10:8 (10_state.md R25). -/
def cmdErrCodeBits : CmdErrCode → Word
  | .none => 0
  | .payloadTooLarge => 1
  | .illegalCommand => 2

end Sys2Proof.Machine
end

