-- ==== Sys2Proof/Machine/Flags.lean ====
section
/-! DEFINITION. `STATUS`: its computed fields, its value as a 32-bit word (10_state.md R25) and the changes of its
sticky fields (60_exceptions.md R220). IPB-CFS has no condition codes (10_state.md R35). -/

namespace Sys2Proof.Machine

/-- `STATUS.RX_STOPPED` (10_state.md R25). -/
def rxStopped (s : State) : Bool := !s.ctrl.rxEn && s.sync.state == .hunt

/-- The interrupt output `IRQ`, and `STATUS.IRQ` (60_exceptions.md R230). -/
def irq (s : State) : Bool :=
  (s.status.rxfValid && s.ctrl.rxie) || ((s.status.herr || s.status.berr || s.status.lerr) && s.ctrl.errie)

/-- `STATUS` as the host reads it (10_state.md R25); bits 31:12 read 0. -/
def statusWord (s : State) : Word :=
  bitAt s.status.rxfValid 0 ||| rxStateCode s.sync.state <<< 1 ||| bitAt (rxStopped s) 3
    ||| bitAt s.status.herr 4 ||| bitAt s.status.berr 5 ||| bitAt s.status.lerr 6
    ||| bitAt s.status.cmderr 7 ||| cmdErrCodeBits s.status.code <<< 8 ||| bitAt (irq s) 11

/-- The sticky bit of a receive error (60_exceptions.md R220). -/
def setRxErrBit (k : RxErrKind) (t : Status) : Status :=
  match k with
  | .headerMismatch => { t with herr := true }
  | .bodyMismatch => { t with berr := true }
  | .emptyBody => { t with lerr := true }

/-- `STATUS.CMDERR <- 1; STATUS.CMDERR_CODE <- code` (60_exceptions.md R224). -/
def setCmdErr (c : CmdErrCode) (t : Status) : Status := { t with cmderr := true, code := c }

/-- The sticky fields cleared (43_control.md R203); `RXF_VALID` is none of them. -/
def clearSticky (t : Status) : Status :=
  { t with herr := false, berr := false, lerr := false, cmderr := false, code := .none }

/-- `STATUS.RXF_VALID <- v`. -/
def setRxfValid (v : Bool) (t : Status) : Status := { t with rxfValid := v }

end Sys2Proof.Machine
end

