-- ==== Sys2Proof/Machine/Ops.lean ====
section
/-! DEFINITION. The named operations over memory, the line streams, the two error recordings and reset.
IPB-CFS has no trap entry and no return from one (60_exceptions.md R228, R229): an error is recorded by
`raiseCmdError` or `recordRxError`, and operation continues. -/

namespace Sys2Proof.Machine

/-- The byte at a host address, if the window holds one there (20_memory.md R60). -/
def memRead (m : Memory) (a : Nat) : Option Byte := List.lookup a m

/-- The byte at a buffer address. In a state that keeps the memory's canonical form every buffer address
holds one; elsewhere the value is free (log 4). -/
def memByte (m : Memory) (a : Nat) : Byte := (memRead m a).getD (Config.noByte a)

/-- A write of one byte. -/
def memWrite : Memory → Nat → Byte → Memory
  | [], _, _ => []
  | (k, b) :: m, a, v => if k = a then (k, v) :: m else (k, b) :: memWrite m a v

/-- A write of bytes to consecutive addresses from `a` on. -/
def memWriteRun (m : Memory) (a : Nat) : List Byte → Memory
  | [] => m
  | b :: bs => memWriteRun (memWrite m a b) (a + 1) bs

/-- The `n` bytes from address `a` on. -/
def memRun (m : Memory) (a n : Nat) : List Byte := (List.range n).map fun i => memByte m (a + i)

/-- The host address of `TXBUF[0]` (10_state.md R32). -/
def txbufBase : Nat := 0x100

/-- The host address of `RXBUF[0]` (10_state.md R33). -/
def rxbufBase : Nat := 0x200

/-- `LineSend(bs)`: one indivisible append to `TXS` (00_scope.md R15, 41_framer.md R143). -/
def lineSend (bs : List Byte) (s : State) : State := s.withTxs (s.txs ++ bs)

/-- The line appends a byte to `RXS` (10_state.md R42). -/
def lineAppend (b : Byte) (s : State) : State := s.withRxs (s.rxs ++ [b])

/-- The line removes the oldest byte of `TXS`, if there is one (10_state.md R42). Log 1. -/
def lineTake (s : State) : State := s.withTxs s.txs.tail

/-- `raise CmdError(code)`: the recording of 60_exceptions.md R224, and nothing else. -/
def raiseCmdError (c : CmdErrCode) (s : State) : State := s.withStatus (setCmdErr c s.status)

/-- `recordRxError(kind)` (60_exceptions.md R221): `ERRCNT + 1` modulo 2^32, and the sticky bit of `kind`. -/
def recordRxError (k : RxErrKind) (s : State) : State :=
  (s.withErrcnt (s.errcnt + 1)).withStatus (setRxErrBit k s.status)

/-- `HCNT <- 0; BCNT <- 0; RX_STATE <- HUNT` (42_synchronizer.md R168, R172, R173, R181). `BLEN` is kept. -/
def toHunt (s : State) : State := s.withSync { s.sync with state := .hunt, hb := [], bb := [] }

/-- The reset input (70_reset_and_hazards.md R250): every piece of the block's state to its reset value. The
line streams are not changed (R252), nor is the environment's own part of the state; the buffers are drawn
afresh (93_implementation_defined.md I1). -/
def assertReset (s : State) : State :=
  { State.reset with
    mem := Memory.drawn (s.draws + 1), draws := s.draws + 1
    txs := s.txs, rxs := s.rxs, host := s.host, schedule := s.schedule, resp := s.resp }

end Sys2Proof.Machine
end

