-- ==== Sys2Proof/Machine/Checksum.lean ====
section
/-! DEFINITION. The checksum function and the checksum unit's commands (40_checksum.md). -/

namespace Sys2Proof.Machine

/-- One shift of the checksum register (40_checksum.md R120). -/
def ckShift (r : Half) : Half := if r.getLsbD 15 then r <<< 1 ^^^ Config.ckPoly else r <<< 1

/-- `k` shifts. -/
def ckShifts : Nat → Half → Half
  | 0, r => r
  | k + 1, r => ckShifts k (ckShift r)

/-- `ckstep(c, b)`: the byte enters at the top, most significant bit first (40_checksum.md R120). -/
def ckstep (c : Half) (b : Byte) : Half := ckShifts 8 (c ^^^ b.setWidth 16 <<< 8)

/-- The checksum register after the bytes of a sequence, from the value `c` on. -/
def ckRun (c : Half) : List Byte → Half
  | [] => c
  | b :: bs => ckRun (ckstep c b) bs

/-- `ck(s)` (40_checksum.md R121). -/
def ck (bs : List Byte) : Half := ckRun Config.ckInitValue bs ^^^ Config.ckXorOut

/-- A span followed by its checksum, high byte first (00_scope.md R12, 30_encoding.md R92, R93). -/
def sealed (bs : List Byte) : List Byte := bs ++ [hi8 (ck bs), lo8 (ck bs)]

/-- `CKSUM` as the host reads it (40_checksum.md R125, 90_conflicts.md C11); bits 31:16 read 0. -/
def cksumWord (s : State) : Word := (s.ckAcc ^^^ Config.ckXorOut).setWidth 32

/-- `CK_INIT` (40_checksum.md R124). -/
def execCkInit (s : State) : Host.Outcome State Fault Refusal := .next (s.withCkAcc Config.ckInitValue)

/-- `CK_FEED b` (40_checksum.md R125). -/
def execCkFeed (b : Byte) (s : State) : Host.Outcome State Fault Refusal := .next (s.withCkAcc (ckstep s.ckAcc b))

end Sys2Proof.Machine
end

