-- ==== Sys2Proof/Machine/Control.lean ====
section
/-! DEFINITION. The control commands (43_control.md). -/

namespace Sys2Proof.Machine

/-- `NOP` (43_control.md R200). -/
def execNop (s : State) : Host.Outcome State Fault Refusal := .next s

/-- `ERR_CLR` (43_control.md R202). -/
def execErrClr (s : State) : Host.Outcome State Fault Refusal := .next (s.withErrcnt 0)

/-- `ST_CLR` (43_control.md R203). -/
def execStClr (s : State) : Host.Outcome State Fault Refusal := .next (s.withStatus (clearSticky s.status))

end Sys2Proof.Machine
end

