-- ==== Sys2Proof/Machine/Framer.lean ====
section
/-! DEFINITION. The framer (41_framer.md): one frame, header and body each sealed by its checksum. -/

namespace Sys2Proof.Machine

/-- The six field bytes of a header (30_encoding.md R92) for a payload of length `n`. -/
def headerFields (a : Addr) (n : Byte) : List Byte := [Config.sof, Config.proto, a.src, a.dst, a.seq, n + 1]

/-- A whole frame: the sealed header and the sealed body (41_framer.md R140, 30_encoding.md R92, R93). -/
def frameOf (a : Addr) (t n : Byte) (payload : List Byte) : List Byte :=
  sealed (headerFields a n) ++ sealed (t :: payload)

/-- `TXBUF[0..n)`. -/
def txPayload (s : State) (n : Byte) : List Byte := memRun s.mem txbufBase n.toNat

/-- `if CTRL.SEQ_INC == 1 then ADDR.SEQ <- seq + 1`, modulo 256 (41_framer.md R140, R141). -/
def advanceSeq (s : State) : State :=
  if s.ctrl.seqInc then s.withAddr { s.addr with seq := s.addr.seq + 1 } else s

/-- `TX_FRAME t, N` (41_framer.md R140, R142). -/
def execTxFrame (t n : Byte) (s : State) : Host.Outcome State Fault Refusal :=
  if n.toNat > Config.maxPayload then .next (raiseCmdError .payloadTooLarge s)
  else .next (advanceSeq (lineSend (frameOf s.addr t n (txPayload s n)) s))

end Sys2Proof.Machine
end

