-- ==== Sys2Proof/Machine/Synchronizer.lean ====
section
/-! DEFINITION. The frame synchronizer: its step (42_synchronizer.md R160 to R175) and its commands
(R180, R181). -/

namespace Sys2Proof.Machine

/-- The synchronizer may take a byte: in HUNT only when enabled and with no frame held, elsewhere whatever
`CTRL` holds (42_synchronizer.md R161, R162). -/
def rxReady (s : State) : Bool :=
  s.sync.state != .hunt || (s.ctrl.rxEn && !s.status.rxfValid)

/-- The synchronizer has a step (42_synchronizer.md R161). -/
def rxEnabled (s : State) : Bool := !s.rxs.isEmpty && rxReady s

/-- A byte taken in HUNT (42_synchronizer.md R163, R164). -/
def huntByte (b : Byte) (s : State) : State :=
  if b = Config.syncByte then s
  else s.withSync { s.sync with state := .header, hb := [b] }

/-- The header check of 42_synchronizer.md R166 on 8 collected bytes. -/
def headerValid (hb : List Byte) : Bool := ck (hb.take 6) == be16 (hb.getD 6 0) (hb.getD 7 0)

/-- A byte taken in HEADER (42_synchronizer.md R165 to R168). -/
def headerByte (b : Byte) (s : State) : State :=
  let hb := s.sync.hb ++ [b]
  if hb.length = 8 then
    if headerValid hb then s.withSync { state := .body, hb := hb, bb := [], blen := hb.getD 5 0 }
    else toHunt (recordRxError .headerMismatch s)
  else s.withSync { s.sync with hb := hb }

/-- Delivery of a valid frame (42_synchronizer.md R172): `bb` holds the message type, the payload and the
checksum. The return to HUNT is the caller's. -/
def deliver (bb : List Byte) (s : State) : State :=
  let hb := s.sync.hb
  let n := s.sync.blen.toNat
  ((((s.withRxhdr { sof := hb.getD 0 0, proto := hb.getD 1 0, src := hb.getD 2 0, dst := hb.getD 3 0 }).withRxinfo
    { seq := hb.getD 4 0, blen := s.sync.blen, type := bb.getD 0 0 }).withMem
    (memWriteRun s.mem rxbufBase ((bb.take n).drop 1))).withStatus (setRxfValid true s.status))

/-- The end of a complete body (42_synchronizer.md R171 to R173, 60_exceptions.md R227: the checksum is tested
before the length). -/
def bodyDone (bb : List Byte) (s : State) : State :=
  let n := s.sync.blen.toNat
  if ck (bb.take n) ≠ be16 (bb.getD n 0) (bb.getD (n + 1) 0) then toHunt (recordRxError .bodyMismatch s)
  else if n = 0 then toHunt (recordRxError .emptyBody s)
  else toHunt (deliver bb s)

/-- A byte taken in BODY (42_synchronizer.md R169, 90_conflicts.md C2). -/
def bodyByte (b : Byte) (s : State) : State :=
  let bb := s.sync.bb ++ [b]
  if bb.length = s.sync.blen.toNat + 2 then bodyDone bb s
  else s.withSync { s.sync with bb := bb }

/-- The case that `RX_STATE` selects (42_synchronizer.md R175). -/
def rxByte (b : Byte) (s : State) : State :=
  match s.sync.state with
  | .hunt => huntByte b s
  | .header => headerByte b s
  | .body => bodyByte b s

/-- `b <- LineRecv()`, then the case of `RX_STATE` (42_synchronizer.md R161, R175; 00_scope.md R15). -/
def rxStep (s : State) : State :=
  match s.rxs with
  | [] => s
  | b :: bs => rxByte b (s.withRxs bs)

/-- `RX_POP` (42_synchronizer.md R180). -/
def execRxPop (s : State) : Host.Outcome State Fault Refusal := .next (s.withStatus (setRxfValid false s.status))

/-- `RX_FLUSH` (42_synchronizer.md R181). -/
def execRxFlush (s : State) : Host.Outcome State Fault Refusal := .next (toHunt s)

end Sys2Proof.Machine
end

