-- ==== Sys2Proof/Machine/Dispatch.lean ====
section
/-! DEFINITION. The dispatch of a command to its meaning (30_encoding.md R98). -/

namespace Sys2Proof.Machine

/-- The effect of one command on the state, inside the step of its `CMD` write (10_state.md R26). -/
def exec (i : Instr) (s : State) : Host.Outcome State Fault Refusal :=
  match i with
  | .nop => Sys2Proof.Machine.execNop s
  | .ckInit => Sys2Proof.Machine.execCkInit s
  | .ckFeed b => Sys2Proof.Machine.execCkFeed b s
  | .txFrame t n => Sys2Proof.Machine.execTxFrame t n s
  | .rxPop => Sys2Proof.Machine.execRxPop s
  | .rxFlush => Sys2Proof.Machine.execRxFlush s
  | .errClr => Sys2Proof.Machine.execErrClr s
  | .stClr => Sys2Proof.Machine.execStClr s

end Sys2Proof.Machine
end

