-- ==== Sys2Proof/Machine/HostPort.lean ====
section
/-! DEFINITION. The host port: the window's map (20_memory.md R60), the legal accesses (R61, R62), reads
(R63, R64, R68), writes (43_control.md R201, R204, R205) and the command port (10_state.md R26). -/

namespace Sys2Proof.Machine

/-- The window's map (20_memory.md R60). -/
def regionOf (addr : HostAddr) : Region :=
  let a := addr.toNat
  if a < 0x020 then .registers
  else if a < 0x100 then .reserved
  else if a < 0x200 then .txbuf
  else if a < 0x300 then .rxbuf
  else .reserved

/-- A legal host access of `n` bytes at `addr` (20_memory.md R61, R62). -/
def legalAccess (addr : HostAddr) (n : Nat) : Bool :=
  let aligned := addr.toNat % 4 == 0
  match regionOf addr with
  | .registers => n == 4 && aligned
  | .txbuf => n == 1 || (n == 4 && aligned)
  | .rxbuf => n == 1 || (n == 4 && aligned)
  | .reserved => false

/-- The offset of a register (10_state.md R22). -/
def regOffset : Reg → HostAddr
  | .ctrl => 0x000
  | .status => 0x004
  | .cmd => 0x008
  | .cksum => 0x00C
  | .errcnt => 0x010
  | .addr => 0x014
  | .rxhdr => 0x018
  | .rxinfo => 0x01C

/-- The register that an aligned register address names (10_state.md R22). -/
def regAt (addr : HostAddr) : Reg :=
  match addr.toNat / 4 with
  | 0 => .ctrl
  | 1 => .status
  | 2 => .cmd
  | 3 => .cksum
  | 4 => .errcnt
  | 5 => .addr
  | 6 => .rxhdr
  | _ => .rxinfo

/-- A register as the host reads it (10_state.md R22 to R31); `CMD` reads 0 (R26). -/
def readReg (r : Reg) (s : State) : Word :=
  match r with
  | .ctrl => ctrlWord s.ctrl
  | .status => statusWord s
  | .cmd => 0
  | .cksum => cksumWord s
  | .errcnt => s.errcnt
  | .addr => addrWord s.addr
  | .rxhdr => rxhdrWord s.rxhdr
  | .rxinfo => rxinfoWord s.rxinfo

/-- A buffer read of 1 byte, in bits 7:0, or of 4 bytes, little-endian (20_memory.md R64). -/
def readBuf (m : Memory) (a n : Nat) : Word :=
  if n = 1 then atLane (memByte m a) 0
  else wordOfLanes (memByte m a) (memByte m (a + 1)) (memByte m (a + 2)) (memByte m (a + 3))

/-- The value of a legal host read (20_memory.md R64, 10_state.md R22). -/
def readValue (addr : HostAddr) (n : Nat) (s : State) : Word :=
  match regionOf addr with
  | .registers => readReg (regAt addr) s
  | _ => readBuf s.mem addr.toNat n

/-- A buffer write of 1 byte or of 4 bytes (20_memory.md R64). -/
def writeBuf (m : Memory) (a n : Nat) (v : Word) : Memory :=
  memWriteRun m a (if n = 1 then [lane v 0] else lanesOfWord v)

/-- A `CMD` write (10_state.md R26): the command the word encodes, or IllegalCommand (60_exceptions.md R225). -/
def commandWrite (w : Word) (s : State) : Host.Outcome State Fault Refusal :=
  match decode w with
  | .ok i => exec i s
  | .error _ => .next (raiseCmdError .illegalCommand s)

/-- A 32-bit write to a register: `CTRL` (43_control.md R201), `ADDR` (R204) and `CMD`; writes to the
read-only registers are ignored (20_memory.md R63). -/
def writeReg (r : Reg) (v : Word) (s : State) : Host.Outcome State Fault Refusal :=
  match r with
  | .ctrl => .next (s.withCtrl (ctrlOfWord v))
  | .cmd => commandWrite v s
  | .addr => .next (s.withAddr (addrOfWord v))
  | .status => .next s
  | .cksum => .next s
  | .errcnt => .next s
  | .rxhdr => .next s
  | .rxinfo => .next s

/-- The effect of a legal host write: on a register, on `TXBUF` (43_control.md R205), or none on `RXBUF`
(20_memory.md R63). -/
def writeEffect (addr : HostAddr) (n : Nat) (v : Word) (s : State) : Host.Outcome State Fault Refusal :=
  match regionOf addr with
  | .registers => writeReg (regAt addr) v s
  | .txbuf => .next (s.withMem (writeBuf s.mem addr.toNat n v))
  | .rxbuf => .next s
  | .reserved => .next s

/-- One host access. An illegal one is a BusError before anything else (60_exceptions.md R222, R227). The
answer on the host port is set beside the access's effect. -/
def hostAccess (a : Access) (s : State) : Host.Outcome State Fault Refusal :=
  match a with
  | .read addr n =>
    if legalAccess addr n then .next (s.withResp (.data n (readValue addr n s))) else .fault (.busError addr)
  | .write addr n v =>
    if legalAccess addr n then writeEffect addr n v (s.withResp .done) else .fault (.busError addr)

/-- The command line of 30_encoding.md R103: a 4-byte write of `w` to `CMD` (R105). -/
def cmdWrite (w : Word) : Access := .write (regOffset .cmd) 4 w

/-- The accesses of `RECV` after `RD32 RXINFO`: `RD8 0x200 + i` for `i = 0 .. R_BLEN-2`, then `RX_POP`
(30_encoding.md R104). -/
def recvTail (blen : Byte) : List HostOp :=
  (List.range (blen.toNat - 1)).map (fun i => .access (.read (BitVec.ofNat 12 (rxbufBase + i)) 1))
    ++ [.access (cmdWrite (encode .rxPop))]

/-- `WAIT_RX` again: the value read has bit 0 equal to 0 (30_encoding.md R104). -/
def waitAgain (v : Word) : Bool := !v.getLsbD 0

/-- The host performs its oldest pending operation, one access (00_scope.md R19, 20_memory.md R74). -/
def hostTurn (s : State) : Host.Outcome State Fault Refusal :=
  match s.host with
  | [] => .next s
  | .access a :: ops => hostAccess a (s.withHost ops)
  | .waitRx :: ops =>
    hostAccess (.read (regOffset .status) 4) (if waitAgain (statusWord s) then s else s.withHost ops)
  | .recvInfo :: ops =>
    hostAccess (.read (regOffset .rxinfo) 4) (s.withHost (recvTail s.rxinfo.blen ++ ops))

end Sys2Proof.Machine
end

