-- ==== Sys2Proof/Machine/Turns.lean ====
section
/-! DEFINITION. The agents' turns (00_scope.md R19, 20_memory.md R74), where the next command is taken from,
and how operation continues after a BusError (60_exceptions.md R222, R228). -/

namespace Sys2Proof.Machine

/-- The synchronizer's turn: its step, if it has one (42_synchronizer.md R161). -/
def syncTurn (s : State) : State := if rxEnabled s then rxStep s else s

/-- One agent's atomic step (20_memory.md R74). -/
def takeTurn (t : Turn) (s : State) : Host.Outcome State Fault Refusal :=
  match t with
  | .host => hostTurn s
  | .sync => .next (syncTurn s)
  | .lineIn b => .next (lineAppend b s)
  | .lineOut => .next (lineTake s)
  | .reset => .next (assertReset s)

/-- With nothing scheduled: the synchronizer if it has a step, else the host if it has an operation, else
nothing happens (log 2). -/
def unscheduledTurn (s : State) : Host.Outcome State Fault Refusal :=
  if rxEnabled s then .next (rxStep s) else hostTurn s

/-- One step of the machine: the turn the schedule names, or the turn of log 2. -/
def nextTurn (s : State) : Host.Outcome State Fault Refusal :=
  match s.schedule with
  | [] => unscheduledTurn s
  | t :: ts => takeTurn t (s.withSchedule ts)

/-- The command word `w` as the host's next access, and the host's turn next. -/
def placeCommand (w : Word) (s : State) : State :=
  (s.withHost (.access (cmdWrite w) :: s.host)).withSchedule (.host :: s.schedule)

/-- The state after a refused access: the error response, the access and its turn gone, and no state of the
block changed (60_exceptions.md R222). -/
def afterBusError (addr : HostAddr) (s : State) : State :=
  ((s.withResp (.busError addr)).withHost s.host.tail).withSchedule s.schedule.tail

end Sys2Proof.Machine
end

