-- ==== Sys2Proof/Machine/Step.lean ====
section
/-! DEFINITION. The step of the machine, and the state in which the next step runs a given command. -/

namespace Sys2Proof.Machine

/-- One atomic step of one agent (20_memory.md R74). -/
def step (s : State) : Host.Outcome State Fault Refusal := nextTurn s

/-- `s` with the command of a table row as the host's next access and the host's turn next. The machine
fetches nothing (10_state.md R21): a command is the data of a `CMD` write (R26). Log 1. -/
def State.withFetchWord (s : State) (nbits w : Nat) : State := placeCommand (BitVec.ofNat 32 (w % 2 ^ nbits)) s

/-- The step that goes on after a BusError, as the hardware does (60_exceptions.md R222, R228; log 3). -/
def stepPastBusError (s : State) : Host.Outcome State Fault Refusal :=
  match step s with
  | .fault (.busError addr) => .next (afterBusError addr s)
  | o => o

end Sys2Proof.Machine
end

