-- ==== Sys2Proof/Machine/AsmSyntax.lean ====
section
/-! DEFINITION. The lines of the assembler notation (30_encoding.md R103 to R105), numbers as written. -/

namespace Sys2Proof.Machine

/-- One line: a command (30_encoding.md R103), a host access (R105) or a pseudo-instruction (R104). -/
inductive AsmLine where
  | nop
  | ckInit
  | ckFeed (b : Nat)
  | txFrame (t n : Nat)
  | rxPop
  | rxFlush
  | errClr
  | stClr
  /-- `WR32 off, v`. -/
  | wr32 (off v : Nat)
  /-- `WR8 off, v`. -/
  | wr8 (off v : Nat)
  /-- `RD32 off`. -/
  | rd32 (off : Nat)
  /-- `RD8 off`. -/
  | rd8 (off : Nat)
  /-- `CKSUM b0, ..., bk-1`. -/
  | cksum (bs : List Nat)
  /-- `LOADTX [p0, ..., pn-1]`. -/
  | loadtx (ps : List Nat)
  /-- `SEND t, [p0, ..., pn-1]`. -/
  | send (t : Nat) (ps : List Nat)
  /-- `WAIT_RX`. -/
  | waitRx
  /-- `RECV`. -/
  | recv
deriving DecidableEq, Repr

end Sys2Proof.Machine
end

