-- ==== Sys2Proof/WellFormed.lean ====
section
/-! DEFINITION. The checks of the assembler (30_encoding.md R103, R105). A command of `Instr` carries its
operands as bytes, so every one of them is well formed by its type; the checks stand where numbers are still
as written: "Each operand must fit in 8 bits; an assembler refuses a value outside 0..255". -/

namespace Sys2Proof.Machine

/-- A value that fits a command operand or a buffer byte (30_encoding.md R103). -/
def fitsByte (v : Nat) : Bool := decide (v < 2 ^ 8)

/-- A 12-bit offset within the window (30_encoding.md R105). -/
def fitsOffset (v : Nat) : Bool := decide (v < 2 ^ 12)

/-- A 32-bit value (00_scope.md R14). -/
def fitsWord (v : Nat) : Bool := decide (v < 2 ^ 32)

/-- A line the assembler accepts; a pseudo-instruction is accepted when every line of its expansion is. -/
def AsmLine.wf : AsmLine → Bool
  | .nop => true
  | .ckInit => true
  | .ckFeed b => fitsByte b
  | .txFrame t n => fitsByte t && fitsByte n
  | .rxPop => true
  | .rxFlush => true
  | .errClr => true
  | .stClr => true
  | .wr32 off v => fitsOffset off && fitsWord v
  | .wr8 off v => fitsOffset off && fitsByte v
  | .rd32 off => fitsOffset off
  | .rd8 off => fitsOffset off
  | .cksum bs => bs.all fitsByte
  | .loadtx ps => ps.all fitsByte && fitsOffset (0xFF + ps.length)
  | .send t ps => fitsByte t && ps.all fitsByte && fitsByte ps.length
  | .waitRx => true
  | .recv => true

end Sys2Proof.Machine
end

