-- ==== Sys2Proof/Machine/Assembler.lean ====
section
/-! DEFINITION. The assembler (30_encoding.md R103 to R105): a line's text, and the host operations it stands
for. -/

namespace Sys2Proof.Machine

/-- A command line is a 4-byte write of its word to `CMD` (30_encoding.md R103, R105). -/
def commandOp (i : Instr) : HostOp := .access (cmdWrite (encode i))

/-- `RD32 off` and `RD8 off` (30_encoding.md R105). -/
def readOp (n off : Nat) : HostOp := .access (.read (BitVec.ofNat 12 off) n)

/-- `WR32 off, v` and `WR8 off, v` (30_encoding.md R105). -/
def writeOp (n off v : Nat) : HostOp := .access (.write (BitVec.ofNat 12 off) n (BitVec.ofNat 32 v))

/-- `LOADTX`: `WR8 0x100 + i, pi`, in order (30_encoding.md R104). -/
def loadTxOps (off : Nat) : List Nat → List HostOp
  | [] => []
  | p :: ps => writeOp 1 off p :: loadTxOps (off + 1) ps

/-- The host operations of a line (30_encoding.md R103 to R105). -/
def asmOps : AsmLine → List HostOp
  | .nop => [commandOp .nop]
  | .ckInit => [commandOp .ckInit]
  | .ckFeed b => [commandOp (.ckFeed (BitVec.ofNat 8 b))]
  | .txFrame t n => [commandOp (.txFrame (BitVec.ofNat 8 t) (BitVec.ofNat 8 n))]
  | .rxPop => [commandOp .rxPop]
  | .rxFlush => [commandOp .rxFlush]
  | .errClr => [commandOp .errClr]
  | .stClr => [commandOp .stClr]
  | .wr32 off v => [writeOp 4 off v]
  | .wr8 off v => [writeOp 1 off v]
  | .rd32 off => [readOp 4 off]
  | .rd8 off => [readOp 1 off]
  | .cksum bs => commandOp .ckInit :: bs.map fun b => commandOp (.ckFeed (BitVec.ofNat 8 b))
  | .loadtx ps => loadTxOps txbufBase ps
  | .send t ps => loadTxOps txbufBase ps ++ [commandOp (.txFrame (BitVec.ofNat 8 t) (BitVec.ofNat 8 ps.length))]
  | .waitRx => [.waitRx]
  | .recv => [.waitRx, readOp 4 (regOffset .rxhdr).toNat, .recvInfo]

/-- The assembler refuses a line that is not well formed (30_encoding.md R103). -/
def assemble (l : AsmLine) : Option (List HostOp) := if l.wf then some (asmOps l) else none

/-- The tokens of a line of text. -/
inductive Token where
  | word (cs : List Char)
  | comma
  | lbracket
  | rbracket
deriving DecidableEq, Repr

/-- The collected characters `acc`, last first, as a token before `ts`. -/
def pushWord (acc : List Char) (ts : List Token) : List Token :=
  if acc.isEmpty then ts else .word acc.reverse :: ts

/-- The tokens of a line: words and numbers separated by spaces, commas and brackets. -/
def tokens (acc : List Char) : List Char → List Token
  | [] => pushWord acc []
  | c :: cs =>
    if c = ' ' then pushWord acc (tokens [] cs)
    else if c = ',' then pushWord acc (.comma :: tokens [] cs)
    else if c = '[' then pushWord acc (.lbracket :: tokens [] cs)
    else if c = ']' then pushWord acc (.rbracket :: tokens [] cs)
    else tokens (c :: acc) cs

/-- The value of a digit in a base. -/
def digitValue (base : Nat) (c : Char) : Option Nat :=
  let v :=
    if '0' ≤ c ∧ c ≤ '9' then c.toNat - '0'.toNat
    else if 'A' ≤ c ∧ c ≤ 'F' then c.toNat - 'A'.toNat + 10
    else if 'a' ≤ c ∧ c ≤ 'f' then c.toNat - 'a'.toNat + 10
    else base
  if v < base then some v else none

/-- The value of the digits after those already worth `acc`. -/
def digitsValue (base acc : Nat) : List Char → Option Nat
  | [] => some acc
  | c :: cs =>
    match digitValue base c with
    | none => none
    | some v => digitsValue base (base * acc + v) cs

/-- A number in decimal or `0x` hexadecimal (30_encoding.md R103). -/
def parseNumber : List Char → Option Nat
  | [] => none
  | ['0', 'x'] => none
  | '0' :: 'x' :: ds => digitsValue 16 0 ds
  | ds => digitsValue 10 0 ds

/-- Register names stand for their offsets (30_encoding.md R105, 10_state.md R22). -/
def parseOffset (cs : List Char) : Option Nat :=
  if cs = "CTRL".toList then some (regOffset .ctrl).toNat
  else if cs = "STATUS".toList then some (regOffset .status).toNat
  else if cs = "CMD".toList then some (regOffset .cmd).toNat
  else if cs = "CKSUM".toList then some (regOffset .cksum).toNat
  else if cs = "ERRCNT".toList then some (regOffset .errcnt).toNat
  else if cs = "ADDR".toList then some (regOffset .addr).toNat
  else if cs = "RXHDR".toList then some (regOffset .rxhdr).toNat
  else if cs = "RXINFO".toList then some (regOffset .rxinfo).toNat
  else parseNumber cs

/-- Numbers separated by commas, up to the end of the line (`close` = false) or to a closing bracket that
ends it (`close` = true). -/
def parseNumbers (close : Bool) : List Token → Option (List Nat)
  | [.word cs] => if close then none else (parseNumber cs).map fun v => [v]
  | [.word cs, .rbracket] => if close then (parseNumber cs).map fun v => [v] else none
  | .word cs :: .comma :: ts =>
    match parseNumber cs, parseNumbers close ts with
    | some v, some vs => some (v :: vs)
    | _, _ => none
  | _ => none

/-- A bracketed list of numbers, possibly empty (30_encoding.md R104). -/
def parseBracketed : List Token → Option (List Nat)
  | [.lbracket, .rbracket] => some []
  | .lbracket :: ts => parseNumbers true ts
  | _ => none

/-- Lines without an operand. -/
def parseBare (m : List Char) : Option AsmLine :=
  if m = "NOP".toList then some .nop
  else if m = "CK_INIT".toList then some .ckInit
  else if m = "RX_POP".toList then some .rxPop
  else if m = "RX_FLUSH".toList then some .rxFlush
  else if m = "ERR_CLR".toList then some .errClr
  else if m = "ST_CLR".toList then some .stClr
  else if m = "WAIT_RX".toList then some .waitRx
  else if m = "RECV".toList then some .recv
  else if m = "CKSUM".toList then some (.cksum [])
  else none

/-- Lines with one operand. -/
def parseOne (m x : List Char) : Option AsmLine :=
  if m = "CK_FEED".toList then (parseNumber x).map .ckFeed
  else if m = "RD32".toList then (parseOffset x).map .rd32
  else if m = "RD8".toList then (parseOffset x).map .rd8
  else none

/-- Lines with two operands. -/
def parseTwo (m x y : List Char) : Option AsmLine :=
  if m = "TX_FRAME".toList then (parseNumber x).bind fun t => (parseNumber y).map (.txFrame t)
  else if m = "WR32".toList then (parseOffset x).bind fun o => (parseNumber y).map (.wr32 o)
  else if m = "WR8".toList then (parseOffset x).bind fun o => (parseNumber y).map (.wr8 o)
  else none

/-- Lines with a list of numbers. -/
def parseMany (m : List Char) (ts : List Token) : Option AsmLine :=
  if m = "CKSUM".toList then (parseNumbers false ts).map .cksum
  else if m = "LOADTX".toList then (parseBracketed ts).map .loadtx
  else if m = "SEND".toList then
    match ts with
    | .word t :: .comma :: ps => (parseNumber t).bind fun t => (parseBracketed ps).map (.send t)
    | _ => none
  else none

/-- The line of a token list: mnemonic, then operands separated by commas (30_encoding.md R103). -/
def parseTokens : List Token → Option AsmLine
  | [.word m] => parseBare m
  | [.word m, .word x] => (parseOne m x).or (parseMany m [.word x])
  | [.word m, .word x, .comma, .word y] => (parseTwo m x y).or (parseMany m [.word x, .comma, .word y])
  | .word m :: ts => parseMany m ts
  | _ => none

/-- The line that a text, given as its characters, stands for (30_encoding.md R103 to R105). -/
def parseLine (cs : List Char) : Option AsmLine := parseTokens (tokens [] cs)

end Sys2Proof.Machine
end

