-- ==== Sys2Proof/Safety.lean ====
section
/-! DEFINITION. What the claims are stated in: the machine's invariant (10_state.md R40 and what the rules keep),
runs of steps and of commands, and the bit flips of 42_synchronizer.md R179. -/

namespace Sys2Proof.Machine

/-- The synchronizer's invariants (10_state.md R40), and what the rules add: in BODY the header has passed
its check and `BLEN` is its byte 5 (42_synchronizer.md R166, R167), and a frame never starts with the
sentinel (R163). -/
def Sync.Ok (y : Sync) : Prop :=
  match y.state with
  | .hunt => y.hb = [] ∧ y.bb = []
  | .header => 1 ≤ y.hb.length ∧ y.hb.length ≤ 7 ∧ y.bb = [] ∧ y.hb.getD 0 0 ≠ Config.syncByte
  | .body => y.hb.length = 8 ∧ headerValid y.hb = true ∧ y.hb.getD 5 0 = y.blen ∧
      y.hb.getD 0 0 ≠ Config.syncByte ∧ y.bb.length ≤ y.blen.toNat + 1

/-- The machine's invariant: memory in its canonical form, the synchronizer's invariants, a held frame only
in HUNT (10_state.md R40) and with `R_BLEN >= 1` (R31) and no sentinel as its first byte, and `CMDERR` set
together with its code (60_exceptions.md R224). -/
structure State.Inv (s : State) : Prop where
  memory : s.mem.wf = true
  sync : s.sync.Ok
  heldInHunt : s.status.rxfValid = true → s.sync.state = .hunt
  heldLength : s.status.rxfValid = true → s.rxinfo.blen ≠ 0
  heldStart : s.status.rxfValid = true → s.rxhdr.sof ≠ Config.syncByte
  errorCode : s.status.cmderr = true ↔ s.status.code ≠ .none

/-- `k` steps, stopping at a fault or a refusal. -/
def runSteps : Nat → State → Host.Outcome State Fault Refusal
  | 0, s => .next s
  | k + 1, s =>
    match step s with
    | .next t => runSteps k t
    | .fault f => .fault f
    | .refused r => .refused r

/-- Commands performed one after another. -/
def runCommands : List Instr → State → Host.Outcome State Fault Refusal
  | [], s => .next s
  | i :: is, s =>
    match exec i s with
    | .next t => runCommands is t
    | .fault f => .fault f
    | .refused r => .refused r

/-- The next state of an outcome, if it is one. -/
def nextOf : Host.Outcome State Fault Refusal → Option State
  | .next s => some s
  | .fault _ => none
  | .refused _ => none

/-- Bit `j` of byte `i` flipped (42_synchronizer.md R179). -/
def flipBit (bs : List Byte) (i j : Nat) : List Byte := bs.modify i fun b => b ^^^ 1#8 <<< j

/-- The opcodes of 30_encoding.md R98. -/
def definedOpcodes : List Byte := [0x00, 0x01, 0x02, 0x10, 0x20, 0x21, 0x30, 0x31]

/-- The accesses that 20_memory.md R62 calls legal, in the rule's own numbers. -/
def LegalByR62 (addr : HostAddr) (n : Nat) : Prop :=
  (addr.toNat < 0x020 ∧ n = 4 ∧ addr.toNat % 4 = 0) ∨
    (0x100 ≤ addr.toNat ∧ addr.toNat < 0x300 ∧ (n = 1 ∨ (n = 4 ∧ addr.toNat % 4 = 0)))

/-- The address and the width of an access. -/
def accessAddr : Access → HostAddr
  | .read addr _ => addr
  | .write addr _ _ => addr

/-- The width of an access, in bytes. -/
def accessWidth : Access → Nat
  | .read _ n => n
  | .write _ n _ => n

/-- The synchronizer hunts, may start a frame and holds none (the premise of 41_framer.md R146 and
42_synchronizer.md R179). -/
def ReadyToHunt (s : State) : Prop :=
  s.sync.state = .hunt ∧ s.ctrl.rxEn = true ∧ s.status.rxfValid = false

/-- The host's turn is next, its next access is `a`, and `ops` and `ts` are what comes after. -/
def HostDue (s : State) (a : Access) (ops : List HostOp) (ts : List Turn) : Prop :=
  s.schedule = .host :: ts ∧ s.host = .access a :: ops

/-- The host's turn is next and its next access is the command word `w` (30_encoding.md R103). -/
def CommandDue (s : State) (w : Word) (ops : List HostOp) (ts : List Turn) : Prop :=
  HostDue s (.write 0x008 4 w) ops ts

/-- The next step is the host's: the schedule names it, or nothing is scheduled and the synchronizer has no step
(log 2). -/
def HostMovesNext (s : State) : Prop :=
  s.schedule.head? = some .host ∨ (s.schedule = [] ∧ rxEnabled s = false)

/-- The next step is the synchronizer's: the schedule names it, or nothing is scheduled and it has a step (log 2). -/
def SyncMovesNext (s : State) : Prop :=
  s.schedule.head? = some .sync ∨ (s.schedule = [] ∧ rxEnabled s = true)

/-- `s` after a host access that answered `r`, before its effect on the block: the access and its turn are gone
(log 1) and the answer is kept in `resp` (log 3). -/
def answered (s : State) (r : Response) (ops : List HostOp) (ts : List Turn) : State :=
  { s with host := ops, schedule := ts, resp := r }

/-- The synchronizer's turn is next. -/
def SyncDue (s : State) (ts : List Turn) : Prop := s.schedule = .sync :: ts

/-- The next `k` turns are the synchronizer's. -/
def SyncTurnsDue (s : State) (k : Nat) (ts : List Turn) : Prop := s.schedule = List.replicate k .sync ++ ts

/-- Nothing the host can read of an error or a delivery differs: the events of 42_synchronizer.md R179. -/
def NoEvent (s t : State) : Prop := t.status = s.status ∧ t.errcnt = s.errcnt

end Sys2Proof.Machine
end

