-- ==== Sys2Proof/Certificates/Slice0/Obligations.lean ====
section
/-! DEFINITION. The statements of this model, for the provers. Each docstring names the rule it formalises. -/

open Sys2Proof Sys2Proof.Machine

/-! ## Command words -/

/-- 30_encoding.md R98, R99, R103: a word decodes to a command exactly when its used bits are those of the
command's own word, whatever the ignored bits hold; in particular a command's word decodes to it. -/
def Obligations.CommandWordDecodesByItsUsedBits : Prop :=
  (∀ i : Instr, decode (encode i) = .ok i) ∧
  ∀ (i : Instr) (w : Word), decode w = .ok i ↔ w &&& usedMask i = encode i

/-- 30_encoding.md R100, 60_exceptions.md R225, R224: exactly the 248 undefined opcodes are illegal, and a write
of an illegal word sets `CMDERR` and code 2 and has no other effect on the block. -/
def Obligations.IllegalCommandIsRecordedAndNothingElse : Prop :=
  (∀ w : Word, decode w = .error (.illegalOpcode (opField w)) ↔ opField w ∉ definedOpcodes) ∧
  ((List.range 256).filter fun n => decide (BitVec.ofNat 8 n ∉ definedOpcodes)).length = 248 ∧
  ∀ (s : State) (w : Word) ops ts, CommandDue s w ops ts → opField w ∉ definedOpcodes →
    step s = .next { answered s .done ops ts with
      status := { s.status with cmderr := true, code := .illegalCommand } }

/-- 30_encoding.md R103: words of the rule's table decode to the command the table names. -/
def Obligations.WordsOfTheSpecDecode : Prop :=
  decode 0x00000000 = .ok .nop ∧ decode 0x00FFFFFF = .ok .nop ∧ decode 0x01000000 = .ok .ckInit ∧
  decode 0x024B0000 = .ok (.ckFeed 0x4B) ∧ decode 0x10220500 = .ok (.txFrame 0x22 0x05) ∧
  decode 0x20000000 = .ok .rxPop ∧ decode 0x21000000 = .ok .rxFlush ∧ decode 0x30000000 = .ok .errClr ∧
  decode 0x31000000 = .ok .stClr ∧ decode 0x03000000 = .error (.illegalOpcode 0x03)

/-- 10_state.md R26, 20_memory.md R67: a 4-byte write to `CMD` performs the decoded command inside its own step. What
the step adds around `exec`: the access and its turn are gone and the host port has answered. A read of `CMD`
gives 0 and changes no state of the block. -/
def Obligations.CmdWriteRunsTheDecodedCommand : Prop :=
  (∀ (s : State) (w : Word) (i : Instr) ops ts, CommandDue s w ops ts → decode w = .ok i →
    step s = exec i (answered s .done ops ts)) ∧
  ∀ (s : State) ops ts, HostDue s (.read 0x008 4) ops ts → step s = .next (answered s (.data 4 0) ops ts)

/-! ## The checksum unit -/

/-- 40_checksum.md R120, R121: `ckstep` is eight shifts of the register with the byte entered at the top, and `ck`
starts at `0x1021` and takes the bytes in order. -/
def Obligations.ChecksumIsTheShiftRegister : Prop :=
  (∀ (c : Half) (b : Byte), ckstep c b =
    (fun r : Half => if r.getLsbD 15 then r <<< 1 ^^^ 0x1021#16 else r <<< 1)^[8] (c ^^^ b.setWidth 16 <<< 8)) ∧
  ck [] = 0x1021#16 ∧ ∀ (bs : List Byte) (b : Byte), ck (bs ++ [b]) = ckstep (ck bs) b

/-- 40_checksum.md R122: `ck(s)` is the remainder of `M(x) x^16 + I(x) x^(8n)` divided by
`x^16 + x^12 + x^5 + 1` over GF(2). -/
def Obligations.ChecksumIsThePolynomialRemainder : Prop :=
  ∀ bs : List Byte,
    (∑ i ∈ Finset.range 16, if (ck bs).getLsbD i then (Polynomial.X ^ i : Polynomial (ZMod 2)) else 0) =
    ((∑ k ∈ Finset.range bs.length, ∑ i ∈ Finset.range 8,
        if (bs.getD k 0).getLsbD i then (Polynomial.X ^ (8 * (bs.length - 1 - k) + i) : Polynomial (ZMod 2)) else 0) *
          Polynomial.X ^ 16 +
      (∑ i ∈ Finset.range 16, if (0x1021#16).getLsbD i then (Polynomial.X ^ i : Polynomial (ZMod 2)) else 0) *
          Polynomial.X ^ (8 * bs.length)) %ₘ
      (Polynomial.X ^ 16 + Polynomial.X ^ 12 + Polynomial.X ^ 5 + 1)

/-- 40_checksum.md R123, residue: a span followed by its own checksum has checksum 0. -/
def Obligations.SealedSpanHasResidueZero : Prop :=
  ∀ bs : List Byte, ck (bs ++ [hi8 (ck bs), lo8 (ck bs)]) = 0x0000#16

/-- 40_checksum.md R123, affinity. -/
def Obligations.ChecksumIsAffine : Prop :=
  ∀ as bs : List Byte, as.length = bs.length →
    ck (List.zipWith (· ^^^ ·) as bs) = ck as ^^^ ck bs ^^^ ck (List.replicate as.length 0)

/-- 40_checksum.md R123, single-bit errors: whichever bit of a sealed span is flipped, the check of the flipped
span fails. -/
def Obligations.SingleBitFlipFailsTheCheck : Prop :=
  ∀ (bs : List Byte) (i j : Nat), i < bs.length + 2 → j < 8 →
    let f := flipBit (bs ++ [hi8 (ck bs), lo8 (ck bs)]) i j
    ck (f.take bs.length) ≠ be16 (f.getD bs.length 0) (f.getD (bs.length + 1) 0)

/-- 40_checksum.md R124: `CK_INIT`, as a command and as any word whose `OP` is `0x01`; `CKSUM` then reads `0x1021`. -/
def Obligations.CkInitLoadsTheInitialValue : Prop :=
  (∀ s : State, exec .ckInit s = .next { s with ckAcc := 0x1021 }) ∧
  (∀ s : State, readReg .cksum { s with ckAcc := 0x1021 } = 0x00001021) ∧
  ∀ (s : State) (w : Word) ops ts, CommandDue s w ops ts → opField w = 0x01 →
    step s = .next { answered s .done ops ts with ckAcc := 0x1021 }

/-- 40_checksum.md R125: `CK_FEED b`, as a command and as any word whose `OP` is `0x02`; `CKSUM` reads the accumulator. -/
def Obligations.CkFeedAdvancesTheAccumulator : Prop :=
  (∀ (s : State) (b : Byte), exec (.ckFeed b) s = .next { s with ckAcc := ckstep s.ckAcc b }) ∧
  (∀ s : State, readReg .cksum s = s.ckAcc.setWidth 32) ∧
  ∀ (s : State) (w : Word) ops ts, CommandDue s w ops ts → opField w = 0x02 →
    step s = .next { answered s .done ops ts with ckAcc := ckstep s.ckAcc (w.extractLsb' 16 8) }

/-- 40_checksum.md R125, 30_encoding.md R104: after `CK_INIT` and one `CK_FEED` per byte of a span the accumulator
holds the span's checksum, and nothing else has changed. -/
def Obligations.FeedingASpanGivesItsChecksum : Prop :=
  ∀ (bs : List Byte) (s : State),
    runCommands (.ckInit :: bs.map .ckFeed) s = .next { s with ckAcc := ck bs }

/-! ## The framer -/

/-- 41_framer.md R140, R143: with a payload of at most 254 bytes `TX_FRAME` appends the whole frame, and advances
`ADDR.SEQ` modulo 256 when `SEQ_INC` is set; with 255 it records `PayloadTooLarge`. Nothing else changes, and any
word whose `OP` is `0x10` is that command on its fields `A` and `B`. -/
def Obligations.TxFrameAppendsTheWholeFrame : Prop :=
  (∀ (s : State) (t n : Byte),
    let hdr : List Byte := [0x4B, 0x00, s.addr.src, s.addr.dst, s.addr.seq, n + 1]
    let body : List Byte := t :: (List.range n.toNat).map fun i => memByte s.mem (0x100 + i)
    exec (.txFrame t n) s = .next (if n.toNat ≤ 254 then { s with
      txs := s.txs ++ (hdr ++ [hi8 (ck hdr), lo8 (ck hdr)] ++ body ++ [hi8 (ck body), lo8 (ck body)])
      addr := { s.addr with seq := if s.ctrl.seqInc then s.addr.seq + 1 else s.addr.seq } }
    else { s with status := { s.status with cmderr := true, code := .payloadTooLarge } })) ∧
  ∀ (s : State) (w : Word) ops ts, CommandDue s w ops ts → opField w = 0x10 →
    step s = exec (.txFrame (w.extractLsb' 16 8) (w.extractLsb' 8 8)) (answered s .done ops ts)

/-- 41_framer.md R142: a `TX_FRAME` word with a payload length of 255 sends nothing and records `PayloadTooLarge`; no
other state of the block changes. -/
def Obligations.PayloadOf255IsRejected : Prop :=
  ∀ (s : State) (w : Word) ops ts, CommandDue s w ops ts → opField w = 0x10 → w.extractLsb' 8 8 = 255#8 →
    step s = .next { answered s .done ops ts with
      status := { s.status with cmderr := true, code := .payloadTooLarge } }

/-- 41_framer.md R145, 00_scope.md R8: every frame sent has the source's invariants. -/
def Obligations.EverySentFrameKeepsTheWireFormat : Prop :=
  ∀ (s u : State) (t n : Byte), n.toNat ≤ 254 → exec (.txFrame t n) s = .next u →
    ∃ f : List Byte, u.txs = s.txs ++ f ∧ f.length = n.toNat + 11 ∧
      f.getD 0 0 = 0x4B ∧ f.getD 1 0 = 0x00 ∧ (f.getD 5 0).toNat = 1 + n.toNat ∧
      be16 (f.getD 6 0) (f.getD 7 0) = ck (f.take 6) ∧
      be16 (f.getD (n.toNat + 9) 0) (f.getD (n.toNat + 10) 0) = ck ((f.take (n.toNat + 9)).drop 8)

/-- 41_framer.md R141: in a sequence of accepted frames the `k`-th carries the first sequence number when
`SEQ_INC` is 0, and that number plus `k`, modulo 256, when it is 1; `ADDR.SEQ` ends accordingly. -/
def Obligations.SequenceNumbersFollowThePolicy : Prop :=
  ∀ (cmds : List (Byte × Byte)) (s : State), (∀ c ∈ cmds, c.2.toNat ≤ 254) →
    let seqAt : Nat → Byte := fun k => if s.ctrl.seqInc then s.addr.seq + BitVec.ofNat 8 k else s.addr.seq
    runCommands (cmds.map fun c => .txFrame c.1 c.2) s = .next { s with
      txs := s.txs ++ (cmds.zipIdx.flatMap fun c =>
        frameOf { s.addr with seq := seqAt c.2 } c.1.1 c.1.2 (txPayload s c.1.2))
      addr := { s.addr with seq := seqAt cmds.length } }

/-- 41_framer.md R140: bytes of `TXBUF` at index `N` and above, the receive buffer, the checksum accumulator and
the synchronizer do not influence what is sent. -/
def Obligations.TxFrameReadsOnlyItsPayload : Prop :=
  ∀ (s s' u u' : State) (t n : Byte), s'.ctrl = s.ctrl → s'.addr = s.addr → s'.txs = s.txs →
    (∀ i, i < n.toNat → memByte s'.mem (0x100 + i) = memByte s.mem (0x100 + i)) →
    exec (.txFrame t n) s = .next u → exec (.txFrame t n) s' = .next u' →
    u'.txs = u.txs ∧ u'.addr = u.addr

/-- 20_memory.md R76, 41_framer.md R143: a step leaves the transmit stream alone, is the line's and takes its oldest
byte, or is the host's and appends one whole frame. Who moves when nothing is scheduled is the model's choice (log 2). -/
def Obligations.TransmitStreamGrowsByWholeFrames : Prop :=
  ∀ s u : State, step s = .next u →
    u.txs = s.txs ∨ (s.schedule.head? = some .lineOut ∧ u.txs = s.txs.tail) ∨
    ∃ (w : Word) (ops : List HostOp), HostMovesNext s ∧ s.host = .access (.write 0x008 4 w) :: ops ∧ opField w = 0x10 ∧
      (bField w).toNat ≤ 254 ∧ u.txs = s.txs ++ frameOf s.addr (aField w) (bField w) (txPayload s (bField w))

/-! ## Receive and control commands -/

/-- 42_synchronizer.md R180: `RX_POP`, as a command and as any word whose `OP` is `0x20`. -/
def Obligations.RxPopReleasesTheFrame : Prop :=
  (∀ s : State, exec .rxPop s = .next { s with status := { s.status with rxfValid := false } }) ∧
  ∀ (s : State) (w : Word) ops ts, CommandDue s w ops ts → opField w = 0x20 →
    step s = .next { answered s .done ops ts with status := { s.status with rxfValid := false } }

/-- 42_synchronizer.md R181: `RX_FLUSH`, as a command and as any word whose `OP` is `0x21`. `BLEN` is kept. -/
def Obligations.RxFlushReturnsToHunt : Prop :=
  (∀ s : State, exec .rxFlush s =
    .next { s with sync := { state := .hunt, hb := [], bb := [], blen := s.sync.blen } }) ∧
  ∀ (s : State) (w : Word) ops ts, CommandDue s w ops ts → opField w = 0x21 →
    step s = .next { answered s .done ops ts with sync := { state := .hunt, hb := [], bb := [], blen := s.sync.blen } }

/-- 43_control.md R200: `NOP` changes nothing, whatever its operand fields hold. -/
def Obligations.NopChangesNothing : Prop :=
  (∀ s : State, exec .nop s = .next s) ∧
  ∀ (s : State) (w : Word) ops ts, CommandDue s w ops ts → opField w = 0x00 →
    step s = .next (answered s .done ops ts)

/-- 43_control.md R202: `ERR_CLR` clears the error counter alone. -/
def Obligations.ErrClrClearsTheCounter : Prop :=
  (∀ s : State, exec .errClr s = .next { s with errcnt := 0 }) ∧
  ∀ (s : State) (w : Word) ops ts, CommandDue s w ops ts → opField w = 0x30 →
    step s = .next { answered s .done ops ts with errcnt := 0 }

/-- 43_control.md R203: `ST_CLR` clears the five sticky fields alone. -/
def Obligations.StClrClearsTheStickyFields : Prop :=
  (∀ s : State, exec .stClr s = .next { s with status :=
    { rxfValid := s.status.rxfValid, herr := false, berr := false, lerr := false, cmderr := false, code := .none } }) ∧
  ∀ (s : State) (w : Word) ops ts, CommandDue s w ops ts → opField w = 0x31 →
    step s = .next { answered s .done ops ts with status :=
      { rxfValid := s.status.rxfValid, herr := false, berr := false, lerr := false, cmderr := false, code := .none } }

/-- The frame of the eight commands: no command changes a byte of either buffer, `CTRL`, `RXHDR`, `RXINFO`, the
receive stream or the environment's own state; each other register changes only under the commands named. -/
def Obligations.CommandsChangeOnlyTheirOwnState : Prop :=
  ∀ (i : Instr) (s u : State), exec i s = .next u →
    (∀ a, memRead u.mem a = memRead s.mem a) ∧
    u.ctrl = s.ctrl ∧ u.rxhdr = s.rxhdr ∧ u.rxinfo = s.rxinfo ∧ u.rxs = s.rxs ∧
    u.host = s.host ∧ u.schedule = s.schedule ∧ u.resp = s.resp ∧ u.draws = s.draws ∧
    (i ≠ .ckInit → (∀ b, i ≠ .ckFeed b) → u.ckAcc = s.ckAcc) ∧
    (i ≠ .errClr → u.errcnt = s.errcnt) ∧
    ((∀ t n, i ≠ .txFrame t n) → u.txs = s.txs ∧ u.addr = s.addr) ∧
    (u.addr.src = s.addr.src ∧ u.addr.dst = s.addr.dst) ∧
    (i ≠ .rxFlush → u.sync = s.sync) ∧ u.sync.blen = s.sync.blen ∧
    (i ≠ .rxPop → u.status.rxfValid = s.status.rxfValid) ∧
    (i ≠ .stClr → u.status.herr = s.status.herr ∧ u.status.berr = s.status.berr ∧ u.status.lerr = s.status.lerr) ∧
    (i ≠ .stClr → (∀ t, i ≠ .txFrame t 255) → u.status.cmderr = s.status.cmderr ∧ u.status.code = s.status.code)

/-! ## The host port -/

/-- 20_memory.md R61, R62, 60_exceptions.md R222: a host access completes exactly when R62 calls it legal; any other
is a BusError at its address, and the step that goes on leaves every piece of the block's state unchanged. The form
of that step is the model's choice (log 3): the refused access and its turn are gone, and the host port's answer, the
error, is kept in `resp`. -/
def Obligations.BusErrorExactlyOnIllegalAccess : Prop :=
  ∀ (s : State) (a : Access) ops ts, HostDue s a ops ts →
    (LegalByR62 (accessAddr a) (accessWidth a) → ∃ u, step s = .next u) ∧
    (¬ LegalByR62 (accessAddr a) (accessWidth a) → step s = .fault (.busError (accessAddr a)) ∧
      stepPastBusError s = .next (answered s (.busError (accessAddr a)) ops ts))

/-- 60_exceptions.md R220, R228: no step is refused, and a BusError of the host's own access, in the host's own turn, is
the only fault. That a BusError is a fault of the step is log 3; who moves when nothing is scheduled, log 2. -/
def Obligations.OnlyBusErrorsStopTheMachine : Prop :=
  ∀ s : State, (∀ r, step s ≠ .refused r) ∧
    ∀ addr, step s = .fault (.busError addr) →
      ∃ a ops, HostMovesNext s ∧ s.host = .access a :: ops ∧ addr = accessAddr a ∧ ¬ LegalByR62 (accessAddr a) (accessWidth a)

/-- 20_memory.md R68: a legal host read changes no state of the block; it only answers on the host port, and the
same read again gives the same value. -/
def Obligations.HostReadsHaveNoSideEffect : Prop :=
  ∀ (s : State) addr n ops ts, HostDue s (.read addr n) ops ts → LegalByR62 addr n →
    ∃ v, step s = .next (answered s (.data n v) ops ts) ∧
      ∀ ops' ts', step { answered s (.data n v) ops ts with host := .access (.read addr n) :: ops', schedule := .host :: ts' } =
        .next (answered s (.data n v) ops' ts')

/-- 20_memory.md R63: writes to the read-only registers and to `RXBUF` complete and change nothing; `CMD` reads 0. -/
def Obligations.WritesToReadOnlyLocationsAreIgnored : Prop :=
  (∀ (s : State) (addr : HostAddr) (v : Word) ops ts, addr ∈ [0x004, 0x00C, 0x010, 0x018, 0x01C] →
    HostDue s (.write addr 4 v) ops ts → step s = .next (answered s .done ops ts)) ∧
  (∀ (s : State) (addr : HostAddr) (n : Nat) (v : Word) ops ts, 0x200 ≤ addr.toNat → addr.toNat < 0x300 →
    (n = 1 ∨ (n = 4 ∧ addr.toNat % 4 = 0)) → HostDue s (.write addr n v) ops ts →
    step s = .next (answered s .done ops ts)) ∧
  ∀ (s : State) ops ts, HostDue s (.read 0x008 4) ops ts → step s = .next (answered s (.data 4 0) ops ts)

/-- 43_control.md R201, 10_state.md R24: a write to `CTRL` sets its four fields and nothing else, and `CTRL` then
reads the value written with its reserved bits 0. -/
def Obligations.CtrlWriteSetsItsFields : Prop :=
  ∀ (s : State) (v : Word) ops ts, HostDue s (.write 0x000 4 v) ops ts →
    let c : Ctrl := { rxEn := v.getLsbD 0, seqInc := v.getLsbD 1, rxie := v.getLsbD 2, errie := v.getLsbD 3 }
    step s = .next { answered s .done ops ts with ctrl := c } ∧
      readReg .ctrl { answered s .done ops ts with ctrl := c } = v &&& 0x0000000F

/-- 43_control.md R204, 10_state.md R29: a write to `ADDR` sets its three fields and nothing else, and `ADDR` then
reads the value written with its reserved bits 0. -/
def Obligations.AddrWriteSetsItsFields : Prop :=
  ∀ (s : State) (v : Word) ops ts, HostDue s (.write 0x014 4 v) ops ts →
    let a : Addr := { src := v.extractLsb' 0 8, dst := v.extractLsb' 8 8, seq := v.extractLsb' 16 8 }
    step s = .next { answered s .done ops ts with addr := a } ∧
      readReg .addr { answered s .done ops ts with addr := a } = v &&& 0x00FFFFFF

/-- 20_memory.md R64, 43_control.md R205: a legal write to `TXBUF` sets the addressed bytes, lowest lane at the
lowest address, and no other byte; nothing but memory changes. -/
def Obligations.TxbufWriteSetsTheAddressedBytes : Prop :=
  ∀ (s : State) (addr : HostAddr) (n : Nat) (v : Word) ops ts, s.mem.wf = true →
    0x100 ≤ addr.toNat → addr.toNat < 0x200 → (n = 1 ∨ (n = 4 ∧ addr.toNat % 4 = 0)) →
    HostDue s (.write addr n v) ops ts →
    ∃ m, step s = .next { answered s .done ops ts with mem := m } ∧
      (∀ j, j < n → memRead m (addr.toNat + j) = some (v.extractLsb' (8 * j) 8)) ∧
      ∀ a, a < addr.toNat ∨ addr.toNat + n ≤ a → memRead m a = memRead s.mem a

/-- 20_memory.md R64: what a legal buffer read gives: the byte in bits 7:0, or four bytes in little-endian lanes. -/
def Obligations.BufferReadGivesItsBytes : Prop :=
  ∀ (s : State) (addr : HostAddr) (n : Nat) ops ts, 0x100 ≤ addr.toNat → addr.toNat < 0x300 →
    (n = 1 ∨ (n = 4 ∧ addr.toNat % 4 = 0)) → HostDue s (.read addr n) ops ts →
    ∃ v, step s = .next (answered s (.data n v) ops ts) ∧
      (∀ j, j < n → v.extractLsb' (8 * j) 8 = memByte s.mem (addr.toNat + j)) ∧
      (n = 1 → v.extractLsb' 8 24 = 0)

/-- 20_memory.md R66: host accesses of both widths see one array of bytes. After a 4-byte write to `TXBUF`, a 1-byte
read of each of the four addresses gives its lane of R64; after 1-byte writes to the four addresses, in any order, a
4-byte read gives their little-endian assembly; and a 4-byte read of either buffer gives in its lanes what 1-byte
reads of the four addresses give. Each read is made in any state with the memory that was left, so reads and line
actions may come between. Writes to `RXBUF` are ignored (R63, `WritesToReadOnlyLocationsAreIgnored`). -/
def Obligations.MixedWidthAccessesSeeOneArray : Prop :=
  (∀ (s : State) (addr : HostAddr) (v : Word) ops ts, s.mem.wf = true →
    0x100 ≤ addr.toNat → addr.toNat < 0x200 → addr.toNat % 4 = 0 → HostDue s (.write addr 4 v) ops ts →
    ∃ u, step s = .next u ∧ ∀ (j : Nat) (t : State) ops' ts', j < 4 → t.mem = u.mem →
      HostDue t (.read (addr + BitVec.ofNat 12 j) 1) ops' ts' →
      step t = .next (answered t (.data 1 ((v.extractLsb' (8 * j) 8).setWidth 32)) ops' ts')) ∧
  (∀ (s : State) (addr : HostAddr) (v : Nat → Word) (order : List Nat) ops ts, s.mem.wf = true →
    0x100 ≤ addr.toNat → addr.toNat < 0x200 → addr.toNat % 4 = 0 → order.Perm [0, 1, 2, 3] →
    s.schedule = List.replicate 4 .host ++ ts →
    s.host = order.map (fun j => HostOp.access (.write (addr + BitVec.ofNat 12 j) 1 (v j))) ++ ops →
    ∃ u, runSteps 4 s = .next u ∧ ∀ (t : State) ops' ts', t.mem = u.mem → HostDue t (.read addr 4) ops' ts' →
      step t = .next (answered t (.data 4
        ((v 3).extractLsb' 0 8 ++ (v 2).extractLsb' 0 8 ++ (v 1).extractLsb' 0 8 ++ (v 0).extractLsb' 0 8 : BitVec 32))
        ops' ts')) ∧
  ∀ (s : State) (addr : HostAddr) ops ts, 0x100 ≤ addr.toNat → addr.toNat < 0x300 → addr.toNat % 4 = 0 →
    HostDue s (.read addr 4) ops ts →
    ∃ v : Word, step s = .next (answered s (.data 4 v) ops ts) ∧ ∀ (j : Nat) (t : State) ops' ts', j < 4 →
      t.mem = s.mem → HostDue t (.read (addr + BitVec.ofNat 12 j) 1) ops' ts' →
      step t = .next (answered t (.data 1 ((v.extractLsb' (8 * j) 8).setWidth 32)) ops' ts')

/-- 10_state.md R25, R23: every field of `STATUS`, at its bit position; bits 31:12 read 0. -/
def Obligations.StatusReadsItsFields : Prop :=
  ∀ s : State,
    let v := readReg .status s
    v.getLsbD 0 = s.status.rxfValid ∧
    v.extractLsb' 1 2 = (match s.sync.state with | .hunt => 0#2 | .header => 1#2 | .body => 2#2) ∧
    v.getLsbD 3 = (!s.ctrl.rxEn && decide (s.sync.state = .hunt)) ∧
    v.getLsbD 4 = s.status.herr ∧ v.getLsbD 5 = s.status.berr ∧ v.getLsbD 6 = s.status.lerr ∧
    v.getLsbD 7 = s.status.cmderr ∧
    v.extractLsb' 8 3 = (match s.status.code with | .none => 0#3 | .payloadTooLarge => 1#3 | .illegalCommand => 2#3) ∧
    v.getLsbD 11 = irq s ∧ v.extractLsb' 12 20 = 0

/-- 10_state.md R22, R27 to R31: where the other registers stand in the window and what each reads, with its reserved
bits 0. -/
def Obligations.RegistersReadTheirFields : Prop :=
  ∀ (s : State) ops ts,
    (∀ r : Reg, HostDue s (.read (regOffset r) 4) ops ts →
      step s = .next (answered s (.data 4 (readReg r s)) ops ts)) ∧
    [Reg.ctrl, .status, .cmd, .cksum, .errcnt, .addr, .rxhdr, .rxinfo].map regOffset =
      [0x000, 0x004, 0x008, 0x00C, 0x010, 0x014, 0x018, 0x01C] ∧
    readReg .cksum s = 0#16 ++ s.ckAcc ∧ readReg .errcnt s = s.errcnt ∧
    readReg .addr s = 0#8 ++ s.addr.seq ++ s.addr.dst ++ s.addr.src ∧
    readReg .rxhdr s = s.rxhdr.dst ++ s.rxhdr.src ++ s.rxhdr.proto ++ s.rxhdr.sof ∧
    readReg .rxinfo s = 0#8 ++ s.rxinfo.type ++ s.rxinfo.blen ++ s.rxinfo.seq ∧
    (readReg .ctrl s).extractLsb' 4 28 = 0 ∧ readReg .cmd s = 0

/-- 60_exceptions.md R230, R231, R224: the level of `IRQ`; `RX_POP` ends the frame source and `ST_CLR` the error
source, and a command error does not move it. -/
def Obligations.InterruptLevelFollowsItsSources : Prop :=
  (∀ s : State, irq s = true ↔
    (s.status.rxfValid = true ∧ s.ctrl.rxie = true) ∨
    ((s.status.herr = true ∨ s.status.berr = true ∨ s.status.lerr = true) ∧ s.ctrl.errie = true)) ∧
  (∀ s u : State, exec .rxPop s = .next u →
    (irq u = true ↔ (s.status.herr = true ∨ s.status.berr = true ∨ s.status.lerr = true) ∧ s.ctrl.errie = true)) ∧
  (∀ s u : State, exec .stClr s = .next u → (irq u = true ↔ s.status.rxfValid = true ∧ s.ctrl.rxie = true)) ∧
  ∀ (s : State) (c : CmdErrCode), irq (raiseCmdError c s) = irq s

/-! ## The synchronizer -/

/-- 42_synchronizer.md R161: the synchronizer's turn takes the oldest byte of `RXS` exactly when `RXS` holds one and
the state is not HUNT, or is HUNT with `RX_EN` set and no frame held. That a turn given to it without a step is used
up and changes nothing else is the model's choice (log 1). -/
def Obligations.SynchronizerStepsExactlyWhenEnabled : Prop :=
  ∀ (s : State) ts, SyncDue s ts →
    let ready := s.sync.state ≠ .hunt ∨ (s.ctrl.rxEn = true ∧ s.status.rxfValid = false)
    (∀ b bs, s.rxs = b :: bs → ready →
      step s = .next (rxByte b { s with rxs := bs, schedule := ts }) ∧
      (rxByte b { s with rxs := bs, schedule := ts }).rxs = bs) ∧
    (s.rxs = [] ∨ ¬ ready → step s = .next { s with schedule := ts })

/-- 42_synchronizer.md R163, R164: in HUNT the sentinel is dropped without a trace, and any other byte starts a
header. -/
def Obligations.HuntDropsOnlyTheSentinel : Prop :=
  ∀ s : State, s.sync.state = .hunt →
    rxByte 0x11 s = s ∧
    ∀ b, b ≠ 0x11 → rxByte b s = { s with sync := { s.sync with state := .header, hb := [b] } }

/-- 42_synchronizer.md R165 to R168: a header byte is collected; the eighth is checked in the same step. A valid
header starts the body with `BLEN` = byte 5; an invalid one is counted, marked and discarded whole. -/
def Obligations.HeaderIsCollectedAndChecked : Prop :=
  ∀ (s : State) (b : Byte), s.sync.state = .header →
    (s.sync.hb.length + 1 < 8 → rxByte b s = { s with sync := { s.sync with hb := s.sync.hb ++ [b] } }) ∧
    (s.sync.hb.length + 1 = 8 →
      let hb := s.sync.hb ++ [b]
      (ck (hb.take 6) = be16 (hb.getD 6 0) (hb.getD 7 0) →
        rxByte b s = { s with sync := { state := .body, hb := hb, bb := [], blen := hb.getD 5 0 } }) ∧
      (ck (hb.take 6) ≠ be16 (hb.getD 6 0) (hb.getD 7 0) →
        rxByte b s = { s with
          errcnt := s.errcnt + 1
          status := { s.status with herr := true }
          sync := { s.sync with state := .hunt, hb := [], bb := [] } }))

/-- 42_synchronizer.md R169, R171, R173, 60_exceptions.md R227: a body byte is collected; the last one is checked in
the same step, the checksum before the length, and a failed body is counted, marked and discarded whole. -/
def Obligations.BodyIsCollectedAndChecked : Prop :=
  ∀ (s : State) (b : Byte), s.sync.state = .body →
    let bb := s.sync.bb ++ [b]
    let n := s.sync.blen.toNat
    let discarded : Sync := { s.sync with state := .hunt, hb := [], bb := [] }
    (s.sync.bb.length + 1 < n + 2 → rxByte b s = { s with sync := { s.sync with bb := bb } }) ∧
    (s.sync.bb.length + 1 = n + 2 → ck (bb.take n) ≠ be16 (bb.getD n 0) (bb.getD (n + 1) 0) →
      rxByte b s = { s with
        errcnt := s.errcnt + 1, status := { s.status with berr := true }, sync := discarded }) ∧
    (s.sync.bb.length + 1 = n + 2 → ck (bb.take n) = be16 (bb.getD n 0) (bb.getD (n + 1) 0) → n = 0 →
      rxByte b s = { s with
        errcnt := s.errcnt + 1, status := { s.status with lerr := true }, sync := discarded })

/-- 42_synchronizer.md R172, 20_memory.md R75: the step that takes the last byte of a valid frame publishes all of it:
`RXHDR`, `RXINFO`, the payload in `RXBUF`, and `RXF_VALID`; every other byte of memory and all other state but the
synchronizer's own is unchanged. -/
def Obligations.DeliveryPublishesTheWholeFrame : Prop :=
  ∀ (s : State) (b : Byte), s.mem.wf = true → s.sync.state = .body →
    let hb := s.sync.hb
    let bb := s.sync.bb ++ [b]
    let n := s.sync.blen.toNat
    s.sync.bb.length + 1 = n + 2 → ck (bb.take n) = be16 (bb.getD n 0) (bb.getD (n + 1) 0) → n ≠ 0 →
    ∃ m, rxByte b s = { s with
        rxhdr := { sof := hb.getD 0 0, proto := hb.getD 1 0, src := hb.getD 2 0, dst := hb.getD 3 0 }
        rxinfo := { seq := hb.getD 4 0, blen := s.sync.blen, type := bb.getD 0 0 }
        mem := m
        status := { s.status with rxfValid := true }
        sync := { s.sync with state := .hunt, hb := [], bb := [] } } ∧
      (∀ i, i < n - 1 → memRead m (0x200 + i) = some (bb.getD (1 + i) 0)) ∧
      ∀ a, a < 0x200 ∨ 0x200 + (n - 1) ≤ a → memRead m a = memRead s.mem a

/-- 42_synchronizer.md R162: in the middle of a frame the synchronizer's turn does the same whatever `CTRL` holds;
in HUNT with `RX_EN` clear it takes no byte and `STATUS.RX_STOPPED` reads 1. That a turn given to it without a step
(stopped, or mid-frame with `RXS` empty) answers the state with only the turn gone is the model's choice (log 1). -/
def Obligations.ReceiverStopsOnlyAtAFrameBoundary : Prop :=
  (∀ (s : State) (c : Ctrl) ts, SyncDue s ts → s.sync.state ≠ .hunt →
    ∃ u, step s = .next u ∧ step { s with ctrl := c } = .next { u with ctrl := c } ∧
      (s.rxs ≠ [] → u.rxs = s.rxs.tail)) ∧
  ∀ (s : State) ts, SyncDue s ts → s.sync.state = .hunt → s.ctrl.rxEn = false →
    step s = .next { s with schedule := ts } ∧ (readReg .status s).getLsbD 3 = true

/-- The frame of the synchronizer's turn (20_memory.md R69): it writes nothing but its internal state, `STATUS`,
`ERRCNT`, `RXHDR`, `RXINFO` and `RXBUF`, and of `RXBUF` never byte 255 (10_state.md R33). -/
def Obligations.SynchronizerChangesOnlyItsOwnState : Prop :=
  ∀ (s : State) ts, s.Inv → SyncDue s ts → ∃ u, step s = .next u ∧
    u.ctrl = s.ctrl ∧ u.addr = s.addr ∧ u.ckAcc = s.ckAcc ∧ u.txs = s.txs ∧ u.host = s.host ∧
    u.resp = s.resp ∧ u.draws = s.draws ∧ u.status.cmderr = s.status.cmderr ∧ u.status.code = s.status.code ∧
    (u.rxs = s.rxs ∨ u.rxs = s.rxs.tail) ∧
    ∀ a, a < 0x200 ∨ 0x2FE ≤ a → memRead u.mem a = memRead s.mem a

/-- 42_synchronizer.md R163, the source's resync test: a run of sentinels before a frame is skipped, one step each. -/
def Obligations.LeadingSentinelsAreSkipped : Prop :=
  ∀ (k : Nat) (s : State) (rest : List Byte) ts, ReadyToHunt s → SyncTurnsDue s k ts →
    s.rxs = List.replicate k 0x11 ++ rest → runSteps k s = .next { s with rxs := rest, schedule := ts }

/-- 42_synchronizer.md R176: one byte a step gives what the source's reads of 8 header bytes and of `bodyLen + 2` body
bytes give: the check of each block decides, and each block is consumed exactly. -/
def Obligations.ByteStepsAgreeWithBlockReads : Prop :=
  ∀ (s : State) (hb body rest : List Byte) ts, ReadyToHunt s → hb.length = 8 → hb.getD 0 0 ≠ 0x11 →
    let n := (hb.getD 5 0).toNat
    let hunting : Byte → Sync := fun l => { state := .hunt, hb := [], bb := [], blen := l }
    (headerValid hb = false → s.rxs = hb ++ rest → SyncTurnsDue s 8 ts →
      runSteps 8 s = .next { s with
        rxs := rest, schedule := ts, errcnt := s.errcnt + 1, status := { s.status with herr := true }
        sync := hunting s.sync.blen }) ∧
    (headerValid hb = true → body.length = n + 2 → s.rxs = hb ++ body ++ rest → SyncTurnsDue s (n + 10) ts →
      (ck (body.take n) ≠ be16 (body.getD n 0) (body.getD (n + 1) 0) →
        runSteps (n + 10) s = .next { s with
          rxs := rest, schedule := ts, errcnt := s.errcnt + 1, status := { s.status with berr := true }
          sync := hunting (hb.getD 5 0) }) ∧
      (ck (body.take n) = be16 (body.getD n 0) (body.getD (n + 1) 0) → n = 0 →
        runSteps (n + 10) s = .next { s with
          rxs := rest, schedule := ts, errcnt := s.errcnt + 1, status := { s.status with lerr := true }
          sync := hunting (hb.getD 5 0) }) ∧
      (ck (body.take n) = be16 (body.getD n 0) (body.getD (n + 1) 0) → n ≠ 0 →
        runSteps (n + 10) s = .next { s with
          rxs := rest, schedule := ts, status := { s.status with rxfValid := true }
          rxhdr := { sof := hb.getD 0 0, proto := hb.getD 1 0, src := hb.getD 2 0, dst := hb.getD 3 0 }
          rxinfo := { seq := hb.getD 4 0, blen := hb.getD 5 0, type := body.getD 0 0 }
          mem := memWriteRun s.mem 0x200 ((body.take n).drop 1)
          sync := hunting (hb.getD 5 0) }))

/-- 41_framer.md R146: the bytes that `TX_FRAME t, N` appends, presented to a hunting synchronizer, are consumed
exactly and produce one delivery, at the last byte, of the same type and payload, with no error. -/
def Obligations.SentFrameIsDeliveredUnchanged : Prop :=
  ∀ (a a' : State) (t n : Byte) (f : List Byte), n.toNat ≤ 254 → exec (.txFrame t n) a = .next a' →
    a'.txs = a.txs ++ f →
    ∀ (s : State) (rest : List Byte) ts, ReadyToHunt s → s.mem.wf = true → s.rxs = f ++ rest →
      SyncTurnsDue s (n.toNat + 11) ts →
      (∀ k, k < n.toNat + 11 → ∃ u, runSteps k s = .next u ∧ NoEvent s u) ∧
      ∃ u, runSteps (n.toNat + 11) s = .next u ∧ u.rxs = rest ∧ u.schedule = ts ∧
        u.status = { s.status with rxfValid := true } ∧ u.errcnt = s.errcnt ∧ u.sync.state = .hunt ∧
        u.rxhdr = { sof := 0x4B, proto := 0x00, src := a.addr.src, dst := a.addr.dst } ∧
        u.rxinfo = { seq := a.addr.seq, blen := n + 1, type := t } ∧
        ∀ i, i < n.toNat → memRead u.mem (0x200 + i) = some (memByte a.mem (0x100 + i))

/-- 42_synchronizer.md R179: whichever bit of a sent frame is flipped, a hunting synchronizer does not deliver the
flipped frame: its first event is a header mismatch at byte 8 for a bit of bytes 0 to 7, and a body mismatch at the
frame's last byte for a bit of the body. -/
def Obligations.FlippedFrameIsNeverDelivered : Prop :=
  ∀ (a a' : State) (t n : Byte) (f : List Byte) (i j : Nat), n.toNat ≤ 254 → exec (.txFrame t n) a = .next a' →
    a'.txs = a.txs ++ f → i < n.toNat + 11 → j < 8 →
    ∀ (s : State) (rest : List Byte) ts, ReadyToHunt s → s.rxs = flipBit f i j ++ rest →
      let k := if i < 8 then 8 else n.toNat + 11
      SyncTurnsDue s k ts →
      (∀ m, m < k → ∃ u, runSteps m s = .next u ∧ NoEvent s u) ∧
      ∃ u, runSteps k s = .next u ∧ u.errcnt = s.errcnt + 1 ∧ u.sync.state = .hunt ∧
        u.status = (if i < 8 then { s.status with herr := true } else { s.status with berr := true })

/-- 20_memory.md R75, 70_reset_and_hazards.md R260: while a frame is held, every step keeps it, with its registers and
`RXBUF`, but for the host's `RX_POP` in the host's own turn, which keeps the registers and `RXBUF` too, and reset. Who
moves when nothing is scheduled is the model's choice (log 2). -/
def Obligations.HeldFrameIsStableUntilPopped : Prop :=
  ∀ s u : State, s.Inv → s.status.rxfValid = true → step s = .next u →
    s.schedule.head? = some .reset ∨
    (u.rxhdr = s.rxhdr ∧ u.rxinfo = s.rxinfo ∧ (∀ a, 0x200 ≤ a → memRead u.mem a = memRead s.mem a) ∧
      (u.status.rxfValid = true ∨
        ∃ (w : Word) (ops : List HostOp), HostMovesNext s ∧ s.host = .access (.write 0x008 4 w) :: ops ∧ opField w = 0x20))

/-- 42_synchronizer.md R177, the vector it cites (RX-5 of 95_test_vectors.md): a frame with a corrupted header and
three valid copies give four header mismatches, and only the third copy is delivered. -/
def Obligations.CorruptedHeaderCostsTwoGoodFrames : Prop :=
  let good : List Byte := [0x4B, 0x00, 0xC0, 0xFF, 0x00, 0x01, 0x7D, 0x35, 0x22, 0x37, 0x11]
  let bad : List Byte := [0x4B, 0x00, 0xC1, 0xFF, 0x00, 0x01, 0x7D, 0x35, 0x22, 0x37, 0x11]
  ∀ s : State, ReadyToHunt s → s.status.herr = false → s.rxs = bad ++ good ++ good ++ good →
    s.schedule = List.replicate 44 .sync →
    (∃ u, runSteps 43 s = .next u ∧ u.status.rxfValid = false ∧ u.errcnt = s.errcnt + 4) ∧
    ∃ u, runSteps 44 s = .next u ∧ u.status = { s.status with rxfValid := true, herr := true } ∧
      u.errcnt = s.errcnt + 4 ∧ readReg .rxhdr u = 0xFFC0004B ∧ readReg .rxinfo u = 0x00220100 ∧ u.rxs = []

/-! ## The whole machine -/

/-- 10_state.md R40 and the other parts of the invariant, right after reset. -/
def Obligations.InvariantHoldsAtReset : Prop := State.reset.Inv

/-- The invariant of `State.Inv` (10_state.md R40 among it) is kept by every step, from every state that has it. -/
def Obligations.EveryStepKeepsTheInvariant : Prop := ∀ s u : State, s.Inv → step s = .next u → u.Inv

/-- 70_reset_and_hazards.md R251: what the host reads after reset; `SRC_RESET` stays open. -/
def Obligations.ResetStateReadsAsTheSpecSays : Prop :=
  readReg .ctrl State.reset = 0x00000000 ∧ readReg .status State.reset = 0x00000008 ∧
  readReg .cmd State.reset = 0x00000000 ∧ readReg .cksum State.reset = 0x00001021 ∧
  readReg .errcnt State.reset = 0x00000000 ∧
  readReg .addr State.reset = 0x0000FF00 ||| Config.srcReset.setWidth 32 ∧
  readReg .rxhdr State.reset = 0x00000000 ∧ readReg .rxinfo State.reset = 0x00000000 ∧
  irq State.reset = false ∧ State.reset.sync = { state := .hunt, hb := [], bb := [], blen := 0 } ∧
  ∀ a, 0x100 ≤ a → a < 0x300 → memRead State.reset.mem a = some (Config.bufDraw 0 a)

/-- 70_reset_and_hazards.md R250, R252: the reset input sets the block's state to the reset values, draws the buffers
afresh and leaves the line streams as they are. That the host's pending operations and the rest of the schedule are
kept is the model's choice (log 10), and so is the draw's form, `Config.bufDraw` of the number of the reset (log 4). -/
def Obligations.ResetInputKeepsTheLineStreams : Prop :=
  ∀ (s : State) ts, s.schedule = .reset :: ts → ∃ u, step s = .next u ∧
    u.txs = s.txs ∧ u.rxs = s.rxs ∧ u.host = s.host ∧ u.schedule = ts ∧
    u.ctrl = State.reset.ctrl ∧ u.status = State.reset.status ∧ u.ckAcc = 0x1021 ∧ u.errcnt = 0 ∧
    u.addr = { src := Config.srcReset, dst := 0xFF, seq := 0x00 } ∧ u.rxhdr = State.reset.rxhdr ∧
    u.rxinfo = State.reset.rxinfo ∧ u.sync = State.reset.sync ∧
    ∀ a, 0x100 ≤ a → a < 0x300 → memRead u.mem a = some (Config.bufDraw (s.draws + 1) a)

/-- 10_state.md R28, R35, 60_exceptions.md R227: `ERRCNT` changes in a step only by one receive error in the
synchronizer's turn, which sets one sticky bit and ends the frame, by `ERR_CLR` in the host's turn, or by reset. Who
moves when nothing is scheduled is the model's choice (log 2). -/
def Obligations.ErrorCounterChangesOnlyByItsEvents : Prop :=
  ∀ s u : State, step s = .next u →
    u.errcnt = s.errcnt ∨
    (SyncMovesNext s ∧ u.errcnt = s.errcnt + 1 ∧ s.sync.state ≠ .hunt ∧ u.sync.state = .hunt ∧
      u.status.rxfValid = s.status.rxfValid ∧
      (u.status = { s.status with herr := true } ∨ u.status = { s.status with berr := true } ∨
        u.status = { s.status with lerr := true })) ∨
    (u.errcnt = 0 ∧
      (s.schedule.head? = some .reset ∨
        ∃ (w : Word) (ops : List HostOp), HostMovesNext s ∧ s.host = .access (.write 0x008 4 w) :: ops ∧ opField w = 0x30))

/-- 10_state.md R32, R33: but for reset, a byte of `TXBUF` changes only by a host write that covers it, in the host's
turn, and a byte of `RXBUF` only by a delivery in the synchronizer's turn, which changes payload bytes alone. Who moves
when nothing is scheduled is the model's choice (log 2). -/
def Obligations.BuffersChangeOnlyByTheirWriters : Prop :=
  ∀ s u : State, s.Inv → step s = .next u → s.schedule.head? ≠ some .reset →
    (∀ a, 0x100 ≤ a → a < 0x200 → memRead u.mem a ≠ memRead s.mem a →
      ∃ addr n v ops, HostMovesNext s ∧ s.host = .access (.write addr n v) :: ops ∧ addr.toNat ≤ a ∧ a < addr.toNat + n) ∧
    ∀ a, 0x200 ≤ a → memRead u.mem a ≠ memRead s.mem a →
      SyncMovesNext s ∧ s.status.rxfValid = false ∧ u.status.rxfValid = true ∧ a < 0x200 + (u.rxinfo.blen.toNat - 1)

/-- 10_state.md R42: the line's two actions, each on its own stream alone. That removing from an empty stream does
nothing is the model's choice (log 1). -/
def Obligations.LineActionsTouchOnlyTheirStream : Prop :=
  (∀ (s : State) (b : Byte) ts, s.schedule = .lineIn b :: ts →
    step s = .next { s with rxs := s.rxs ++ [b], schedule := ts }) ∧
  ∀ (s : State) ts, s.schedule = .lineOut :: ts → step s = .next { s with txs := s.txs.tail, schedule := ts }

/-- 30_encoding.md R104: `WAIT_RX` reads `STATUS` and stays the host's next operation while bit 0 is 0; the `RD32
RXINFO` of `RECV` is followed by one byte read per payload byte and `RX_POP`. That a repeated `WAIT_RX` stays the
host's oldest operation, that `RECV`'s accesses are put in front of the pending ones, and that `R_BLEN = 0` reads no
byte is the model's choice (log 11). -/
def Obligations.WaitRxAndRecvFollowTheValueRead : Prop :=
  (∀ (s : State) ops ts, s.schedule = .host :: ts → s.host = .waitRx :: ops →
    step s = .next (answered s (.data 4 (readReg .status s)) (if s.status.rxfValid then ops else s.host) ts)) ∧
  ∀ (s : State) ops ts, s.schedule = .host :: ts → s.host = .recvInfo :: ops →
    step s = .next (answered s (.data 4 (readReg .rxinfo s))
      ((List.range (s.rxinfo.blen.toNat - 1)).map (fun i => HostOp.access (.read (BitVec.ofNat 12 (0x200 + i)) 1)) ++
        [HostOp.access (.write 0x008 4 0x20000000)] ++ ops) ts)

/-- 30_encoding.md R103: the assembler refuses an operand outside 0..255, and gives each accepted command line a write
of the table's word to `CMD`. -/
def Obligations.AssemblerWritesTheTablesWords : Prop :=
  (∀ b, assemble (.ckFeed b) =
    if b ≤ 255 then some [.access (.write 0x008 4 (0x02000000 ||| BitVec.ofNat 32 b <<< 16))] else none) ∧
  (∀ t n, assemble (.txFrame t n) =
    if t ≤ 255 ∧ n ≤ 255 then
      some [.access (.write 0x008 4 (0x10000000 ||| BitVec.ofNat 32 t <<< 16 ||| BitVec.ofNat 32 n <<< 8))]
    else none) ∧
  [AsmLine.nop, .ckInit, .rxPop, .rxFlush, .errClr, .stClr].map assemble =
    [0x00000000, 0x01000000, 0x20000000, 0x21000000, 0x30000000, 0x31000000].map
      fun w => some [HostOp.access (.write 0x008 4 w)]
end

