-- ==== Sys2Proof/Laws/Memory.lean ====
section
/-! SUPPORT. The laws of memory: every operation keeps the canonical form, a read after a write gives the
value written, and a write leaves every other address alone. -/

namespace Sys2Proof.Machine

/-- The addresses a memory lists. -/
@[simp] theorem memWrite_keys (m : Memory) (a : Nat) (v : Byte) :
    (memWrite m a v).map Prod.fst = m.map Prod.fst := by
  induction m with
  | nil => rfl
  | cons c m ih =>
    obtain ⟨k, b⟩ := c
    by_cases h : k = a <;> simp [memWrite, h, ih]

@[simp] theorem memWriteRun_keys (m : Memory) (a : Nat) (bs : List Byte) :
    (memWriteRun m a bs).map Prod.fst = m.map Prod.fst := by
  induction bs generalizing m a with
  | nil => rfl
  | cons b bs ih => simp [memWriteRun, ih]

theorem wf_iff_keys (m : Memory) : m.wf = true ↔ m.map Prod.fst = List.range' 0x100 (2 * Config.bufSize) := by
  simp [Memory.wf]

theorem memWrite_wf {m : Memory} (h : m.wf = true) (a : Nat) (v : Byte) : (memWrite m a v).wf = true := by
  rw [wf_iff_keys] at *; simpa using h

theorem memWriteRun_wf {m : Memory} (h : m.wf = true) (a : Nat) (bs : List Byte) :
    (memWriteRun m a bs).wf = true := by
  rw [wf_iff_keys] at *; simpa using h

theorem writeBuf_wf {m : Memory} (h : m.wf = true) (a n : Nat) (v : Word) : (writeBuf m a n v).wf = true :=
  memWriteRun_wf h _ _

theorem drawn_wf (k : Nat) : (Memory.drawn k).wf = true := by
  simp [wf_iff_keys, Memory.drawn, Function.comp_def]

/-- A canonical memory lists the addresses of the two buffers in rising order. -/
theorem wf_rising {m : Memory} (h : m.wf = true) : (m.map Prod.fst).Pairwise (· < ·) := by
  rw [(wf_iff_keys m).mp h]; exact List.pairwise_lt_range'

theorem memRead_isSome_iff (m : Memory) (a : Nat) : (memRead m a).isSome = true ↔ a ∈ m.map Prod.fst := by
  induction m with
  | nil => simp [memRead]
  | cons c m ih =>
    obtain ⟨k, b⟩ := c
    by_cases h : a = k
    · subst h; simp [memRead]
    · have hb : (a == k) = false := by simp [h]
      simp only [memRead, List.lookup, hb] at ih ⊢
      simp [h, ih]

/-- In a canonical memory exactly the buffer addresses hold a byte (20_memory.md R60). -/
theorem wf_memRead_isSome {m : Memory} (h : m.wf = true) (a : Nat) :
    (memRead m a).isSome = true ↔ 0x100 ≤ a ∧ a < 0x300 := by
  rw [memRead_isSome_iff, (wf_iff_keys m).mp h]
  simp only [List.mem_range', Config.bufSize]
  constructor
  · rintro ⟨i, hi, rfl⟩; omega
  · rintro ⟨h1, h2⟩; exact ⟨a - 0x100, by omega, by omega⟩

theorem memRead_memWrite_ne (m : Memory) {a a' : Nat} (v : Byte) (h : a' ≠ a) :
    memRead (memWrite m a v) a' = memRead m a' := by
  induction m with
  | nil => rfl
  | cons c m ih =>
    obtain ⟨k, b⟩ := c
    by_cases hk : k = a
    · have hb : (a' == a) = false := by simp [h]
      subst hk
      simp [memWrite, memRead, List.lookup, hb]
    · simp only [memWrite, hk, if_false, memRead, List.lookup] at ih ⊢
      cases a' == k <;> simp [ih]

theorem memRead_memWrite_same (m : Memory) (a : Nat) (v : Byte) (h : (memRead m a).isSome = true) :
    memRead (memWrite m a v) a = some v := by
  induction m with
  | nil => simp [memRead] at h
  | cons c m ih =>
    obtain ⟨k, b⟩ := c
    by_cases hk : k = a
    · simp [memWrite, memRead, hk]
    · have hb : (a == k) = false := by simpa using fun e => hk e.symm
      simp only [memRead, List.lookup, hb, memWrite, hk, if_false] at ih h ⊢
      exact ih h

/-- In a canonical memory a byte written to a buffer address is the byte read there. -/
theorem memByte_memWrite_same {m : Memory} (h : m.wf = true) {a : Nat} (v : Byte) (h1 : 0x100 ≤ a) (h2 : a < 0x300) :
    memByte (memWrite m a v) a = v := by
  rw [memByte, memRead_memWrite_same _ _ _ ((wf_memRead_isSome h a).mpr ⟨h1, h2⟩)]; rfl

theorem memByte_memWrite_ne (m : Memory) {a a' : Nat} (v : Byte) (h : a' ≠ a) :
    memByte (memWrite m a v) a' = memByte m a' := by
  rw [memByte, memByte, memRead_memWrite_ne _ _ h]

/-- A run of writes leaves every address outside it alone. -/
theorem memRead_memWriteRun_outside (m : Memory) (a : Nat) (bs : List Byte) (a' : Nat)
    (h : a' < a ∨ a + bs.length ≤ a') : memRead (memWriteRun m a bs) a' = memRead m a' := by
  induction bs generalizing m a with
  | nil => rfl
  | cons b bs ih =>
    simp only [List.length_cons] at h
    rw [memWriteRun, ih _ _ (by omega), memRead_memWrite_ne _ _ (by omega)]

/-- A run of writes to listed addresses: each holds its byte. -/
theorem memRead_memWriteRun_inside (m : Memory) (a : Nat) (bs : List Byte) (i : Nat) (h : i < bs.length)
    (hm : (memRead m (a + i)).isSome = true) : memRead (memWriteRun m a bs) (a + i) = bs[i]? := by
  induction bs generalizing m a i with
  | nil => simp at h
  | cons b bs ih =>
    cases i with
    | zero =>
      rw [memWriteRun, memRead_memWriteRun_outside _ _ _ _ (by omega)]
      simpa using memRead_memWrite_same _ _ _ hm
    | succ i =>
      have e : a + (i + 1) = a + 1 + i := by omega
      rw [memWriteRun, e, ih _ _ i (by simpa using h)]
      · simp
      · rw [memRead_memWrite_ne _ _ (by omega)]; rwa [e] at hm

end Sys2Proof.Machine
end

