-- ==== Sys2Proof/Laws/State.lean ====
section
/-! SUPPORT. One lemma per field per update of State: what each named update changes and what it leaves. -/

namespace Sys2Proof.Machine

variable (s : State)

@[simp] theorem withCtrl_ctrl (v : Ctrl) : (s.withCtrl v).ctrl = v := rfl
@[simp] theorem withCtrl_status (v : Ctrl) : (s.withCtrl v).status = s.status := rfl
@[simp] theorem withCtrl_ckAcc (v : Ctrl) : (s.withCtrl v).ckAcc = s.ckAcc := rfl
@[simp] theorem withCtrl_errcnt (v : Ctrl) : (s.withCtrl v).errcnt = s.errcnt := rfl
@[simp] theorem withCtrl_addr (v : Ctrl) : (s.withCtrl v).addr = s.addr := rfl
@[simp] theorem withCtrl_rxhdr (v : Ctrl) : (s.withCtrl v).rxhdr = s.rxhdr := rfl
@[simp] theorem withCtrl_rxinfo (v : Ctrl) : (s.withCtrl v).rxinfo = s.rxinfo := rfl
@[simp] theorem withCtrl_mem (v : Ctrl) : (s.withCtrl v).mem = s.mem := rfl
@[simp] theorem withCtrl_sync (v : Ctrl) : (s.withCtrl v).sync = s.sync := rfl
@[simp] theorem withCtrl_txs (v : Ctrl) : (s.withCtrl v).txs = s.txs := rfl
@[simp] theorem withCtrl_rxs (v : Ctrl) : (s.withCtrl v).rxs = s.rxs := rfl
@[simp] theorem withCtrl_host (v : Ctrl) : (s.withCtrl v).host = s.host := rfl
@[simp] theorem withCtrl_schedule (v : Ctrl) : (s.withCtrl v).schedule = s.schedule := rfl
@[simp] theorem withCtrl_resp (v : Ctrl) : (s.withCtrl v).resp = s.resp := rfl
@[simp] theorem withCtrl_draws (v : Ctrl) : (s.withCtrl v).draws = s.draws := rfl

@[simp] theorem withStatus_ctrl (v : Status) : (s.withStatus v).ctrl = s.ctrl := rfl
@[simp] theorem withStatus_status (v : Status) : (s.withStatus v).status = v := rfl
@[simp] theorem withStatus_ckAcc (v : Status) : (s.withStatus v).ckAcc = s.ckAcc := rfl
@[simp] theorem withStatus_errcnt (v : Status) : (s.withStatus v).errcnt = s.errcnt := rfl
@[simp] theorem withStatus_addr (v : Status) : (s.withStatus v).addr = s.addr := rfl
@[simp] theorem withStatus_rxhdr (v : Status) : (s.withStatus v).rxhdr = s.rxhdr := rfl
@[simp] theorem withStatus_rxinfo (v : Status) : (s.withStatus v).rxinfo = s.rxinfo := rfl
@[simp] theorem withStatus_mem (v : Status) : (s.withStatus v).mem = s.mem := rfl
@[simp] theorem withStatus_sync (v : Status) : (s.withStatus v).sync = s.sync := rfl
@[simp] theorem withStatus_txs (v : Status) : (s.withStatus v).txs = s.txs := rfl
@[simp] theorem withStatus_rxs (v : Status) : (s.withStatus v).rxs = s.rxs := rfl
@[simp] theorem withStatus_host (v : Status) : (s.withStatus v).host = s.host := rfl
@[simp] theorem withStatus_schedule (v : Status) : (s.withStatus v).schedule = s.schedule := rfl
@[simp] theorem withStatus_resp (v : Status) : (s.withStatus v).resp = s.resp := rfl
@[simp] theorem withStatus_draws (v : Status) : (s.withStatus v).draws = s.draws := rfl

@[simp] theorem withCkAcc_ctrl (v : Half) : (s.withCkAcc v).ctrl = s.ctrl := rfl
@[simp] theorem withCkAcc_status (v : Half) : (s.withCkAcc v).status = s.status := rfl
@[simp] theorem withCkAcc_ckAcc (v : Half) : (s.withCkAcc v).ckAcc = v := rfl
@[simp] theorem withCkAcc_errcnt (v : Half) : (s.withCkAcc v).errcnt = s.errcnt := rfl
@[simp] theorem withCkAcc_addr (v : Half) : (s.withCkAcc v).addr = s.addr := rfl
@[simp] theorem withCkAcc_rxhdr (v : Half) : (s.withCkAcc v).rxhdr = s.rxhdr := rfl
@[simp] theorem withCkAcc_rxinfo (v : Half) : (s.withCkAcc v).rxinfo = s.rxinfo := rfl
@[simp] theorem withCkAcc_mem (v : Half) : (s.withCkAcc v).mem = s.mem := rfl
@[simp] theorem withCkAcc_sync (v : Half) : (s.withCkAcc v).sync = s.sync := rfl
@[simp] theorem withCkAcc_txs (v : Half) : (s.withCkAcc v).txs = s.txs := rfl
@[simp] theorem withCkAcc_rxs (v : Half) : (s.withCkAcc v).rxs = s.rxs := rfl
@[simp] theorem withCkAcc_host (v : Half) : (s.withCkAcc v).host = s.host := rfl
@[simp] theorem withCkAcc_schedule (v : Half) : (s.withCkAcc v).schedule = s.schedule := rfl
@[simp] theorem withCkAcc_resp (v : Half) : (s.withCkAcc v).resp = s.resp := rfl
@[simp] theorem withCkAcc_draws (v : Half) : (s.withCkAcc v).draws = s.draws := rfl

@[simp] theorem withErrcnt_ctrl (v : Word) : (s.withErrcnt v).ctrl = s.ctrl := rfl
@[simp] theorem withErrcnt_status (v : Word) : (s.withErrcnt v).status = s.status := rfl
@[simp] theorem withErrcnt_ckAcc (v : Word) : (s.withErrcnt v).ckAcc = s.ckAcc := rfl
@[simp] theorem withErrcnt_errcnt (v : Word) : (s.withErrcnt v).errcnt = v := rfl
@[simp] theorem withErrcnt_addr (v : Word) : (s.withErrcnt v).addr = s.addr := rfl
@[simp] theorem withErrcnt_rxhdr (v : Word) : (s.withErrcnt v).rxhdr = s.rxhdr := rfl
@[simp] theorem withErrcnt_rxinfo (v : Word) : (s.withErrcnt v).rxinfo = s.rxinfo := rfl
@[simp] theorem withErrcnt_mem (v : Word) : (s.withErrcnt v).mem = s.mem := rfl
@[simp] theorem withErrcnt_sync (v : Word) : (s.withErrcnt v).sync = s.sync := rfl
@[simp] theorem withErrcnt_txs (v : Word) : (s.withErrcnt v).txs = s.txs := rfl
@[simp] theorem withErrcnt_rxs (v : Word) : (s.withErrcnt v).rxs = s.rxs := rfl
@[simp] theorem withErrcnt_host (v : Word) : (s.withErrcnt v).host = s.host := rfl
@[simp] theorem withErrcnt_schedule (v : Word) : (s.withErrcnt v).schedule = s.schedule := rfl
@[simp] theorem withErrcnt_resp (v : Word) : (s.withErrcnt v).resp = s.resp := rfl
@[simp] theorem withErrcnt_draws (v : Word) : (s.withErrcnt v).draws = s.draws := rfl

@[simp] theorem withAddr_ctrl (v : Addr) : (s.withAddr v).ctrl = s.ctrl := rfl
@[simp] theorem withAddr_status (v : Addr) : (s.withAddr v).status = s.status := rfl
@[simp] theorem withAddr_ckAcc (v : Addr) : (s.withAddr v).ckAcc = s.ckAcc := rfl
@[simp] theorem withAddr_errcnt (v : Addr) : (s.withAddr v).errcnt = s.errcnt := rfl
@[simp] theorem withAddr_addr (v : Addr) : (s.withAddr v).addr = v := rfl
@[simp] theorem withAddr_rxhdr (v : Addr) : (s.withAddr v).rxhdr = s.rxhdr := rfl
@[simp] theorem withAddr_rxinfo (v : Addr) : (s.withAddr v).rxinfo = s.rxinfo := rfl
@[simp] theorem withAddr_mem (v : Addr) : (s.withAddr v).mem = s.mem := rfl
@[simp] theorem withAddr_sync (v : Addr) : (s.withAddr v).sync = s.sync := rfl
@[simp] theorem withAddr_txs (v : Addr) : (s.withAddr v).txs = s.txs := rfl
@[simp] theorem withAddr_rxs (v : Addr) : (s.withAddr v).rxs = s.rxs := rfl
@[simp] theorem withAddr_host (v : Addr) : (s.withAddr v).host = s.host := rfl
@[simp] theorem withAddr_schedule (v : Addr) : (s.withAddr v).schedule = s.schedule := rfl
@[simp] theorem withAddr_resp (v : Addr) : (s.withAddr v).resp = s.resp := rfl
@[simp] theorem withAddr_draws (v : Addr) : (s.withAddr v).draws = s.draws := rfl

@[simp] theorem withRxhdr_ctrl (v : RxHdr) : (s.withRxhdr v).ctrl = s.ctrl := rfl
@[simp] theorem withRxhdr_status (v : RxHdr) : (s.withRxhdr v).status = s.status := rfl
@[simp] theorem withRxhdr_ckAcc (v : RxHdr) : (s.withRxhdr v).ckAcc = s.ckAcc := rfl
@[simp] theorem withRxhdr_errcnt (v : RxHdr) : (s.withRxhdr v).errcnt = s.errcnt := rfl
@[simp] theorem withRxhdr_addr (v : RxHdr) : (s.withRxhdr v).addr = s.addr := rfl
@[simp] theorem withRxhdr_rxhdr (v : RxHdr) : (s.withRxhdr v).rxhdr = v := rfl
@[simp] theorem withRxhdr_rxinfo (v : RxHdr) : (s.withRxhdr v).rxinfo = s.rxinfo := rfl
@[simp] theorem withRxhdr_mem (v : RxHdr) : (s.withRxhdr v).mem = s.mem := rfl
@[simp] theorem withRxhdr_sync (v : RxHdr) : (s.withRxhdr v).sync = s.sync := rfl
@[simp] theorem withRxhdr_txs (v : RxHdr) : (s.withRxhdr v).txs = s.txs := rfl
@[simp] theorem withRxhdr_rxs (v : RxHdr) : (s.withRxhdr v).rxs = s.rxs := rfl
@[simp] theorem withRxhdr_host (v : RxHdr) : (s.withRxhdr v).host = s.host := rfl
@[simp] theorem withRxhdr_schedule (v : RxHdr) : (s.withRxhdr v).schedule = s.schedule := rfl
@[simp] theorem withRxhdr_resp (v : RxHdr) : (s.withRxhdr v).resp = s.resp := rfl
@[simp] theorem withRxhdr_draws (v : RxHdr) : (s.withRxhdr v).draws = s.draws := rfl

@[simp] theorem withRxinfo_ctrl (v : RxInfo) : (s.withRxinfo v).ctrl = s.ctrl := rfl
@[simp] theorem withRxinfo_status (v : RxInfo) : (s.withRxinfo v).status = s.status := rfl
@[simp] theorem withRxinfo_ckAcc (v : RxInfo) : (s.withRxinfo v).ckAcc = s.ckAcc := rfl
@[simp] theorem withRxinfo_errcnt (v : RxInfo) : (s.withRxinfo v).errcnt = s.errcnt := rfl
@[simp] theorem withRxinfo_addr (v : RxInfo) : (s.withRxinfo v).addr = s.addr := rfl
@[simp] theorem withRxinfo_rxhdr (v : RxInfo) : (s.withRxinfo v).rxhdr = s.rxhdr := rfl
@[simp] theorem withRxinfo_rxinfo (v : RxInfo) : (s.withRxinfo v).rxinfo = v := rfl
@[simp] theorem withRxinfo_mem (v : RxInfo) : (s.withRxinfo v).mem = s.mem := rfl
@[simp] theorem withRxinfo_sync (v : RxInfo) : (s.withRxinfo v).sync = s.sync := rfl
@[simp] theorem withRxinfo_txs (v : RxInfo) : (s.withRxinfo v).txs = s.txs := rfl
@[simp] theorem withRxinfo_rxs (v : RxInfo) : (s.withRxinfo v).rxs = s.rxs := rfl
@[simp] theorem withRxinfo_host (v : RxInfo) : (s.withRxinfo v).host = s.host := rfl
@[simp] theorem withRxinfo_schedule (v : RxInfo) : (s.withRxinfo v).schedule = s.schedule := rfl
@[simp] theorem withRxinfo_resp (v : RxInfo) : (s.withRxinfo v).resp = s.resp := rfl
@[simp] theorem withRxinfo_draws (v : RxInfo) : (s.withRxinfo v).draws = s.draws := rfl

@[simp] theorem withMem_ctrl (v : Memory) : (s.withMem v).ctrl = s.ctrl := rfl
@[simp] theorem withMem_status (v : Memory) : (s.withMem v).status = s.status := rfl
@[simp] theorem withMem_ckAcc (v : Memory) : (s.withMem v).ckAcc = s.ckAcc := rfl
@[simp] theorem withMem_errcnt (v : Memory) : (s.withMem v).errcnt = s.errcnt := rfl
@[simp] theorem withMem_addr (v : Memory) : (s.withMem v).addr = s.addr := rfl
@[simp] theorem withMem_rxhdr (v : Memory) : (s.withMem v).rxhdr = s.rxhdr := rfl
@[simp] theorem withMem_rxinfo (v : Memory) : (s.withMem v).rxinfo = s.rxinfo := rfl
@[simp] theorem withMem_mem (v : Memory) : (s.withMem v).mem = v := rfl
@[simp] theorem withMem_sync (v : Memory) : (s.withMem v).sync = s.sync := rfl
@[simp] theorem withMem_txs (v : Memory) : (s.withMem v).txs = s.txs := rfl
@[simp] theorem withMem_rxs (v : Memory) : (s.withMem v).rxs = s.rxs := rfl
@[simp] theorem withMem_host (v : Memory) : (s.withMem v).host = s.host := rfl
@[simp] theorem withMem_schedule (v : Memory) : (s.withMem v).schedule = s.schedule := rfl
@[simp] theorem withMem_resp (v : Memory) : (s.withMem v).resp = s.resp := rfl
@[simp] theorem withMem_draws (v : Memory) : (s.withMem v).draws = s.draws := rfl

@[simp] theorem withSync_ctrl (v : Sync) : (s.withSync v).ctrl = s.ctrl := rfl
@[simp] theorem withSync_status (v : Sync) : (s.withSync v).status = s.status := rfl
@[simp] theorem withSync_ckAcc (v : Sync) : (s.withSync v).ckAcc = s.ckAcc := rfl
@[simp] theorem withSync_errcnt (v : Sync) : (s.withSync v).errcnt = s.errcnt := rfl
@[simp] theorem withSync_addr (v : Sync) : (s.withSync v).addr = s.addr := rfl
@[simp] theorem withSync_rxhdr (v : Sync) : (s.withSync v).rxhdr = s.rxhdr := rfl
@[simp] theorem withSync_rxinfo (v : Sync) : (s.withSync v).rxinfo = s.rxinfo := rfl
@[simp] theorem withSync_mem (v : Sync) : (s.withSync v).mem = s.mem := rfl
@[simp] theorem withSync_sync (v : Sync) : (s.withSync v).sync = v := rfl
@[simp] theorem withSync_txs (v : Sync) : (s.withSync v).txs = s.txs := rfl
@[simp] theorem withSync_rxs (v : Sync) : (s.withSync v).rxs = s.rxs := rfl
@[simp] theorem withSync_host (v : Sync) : (s.withSync v).host = s.host := rfl
@[simp] theorem withSync_schedule (v : Sync) : (s.withSync v).schedule = s.schedule := rfl
@[simp] theorem withSync_resp (v : Sync) : (s.withSync v).resp = s.resp := rfl
@[simp] theorem withSync_draws (v : Sync) : (s.withSync v).draws = s.draws := rfl

@[simp] theorem withTxs_ctrl (v : List Byte) : (s.withTxs v).ctrl = s.ctrl := rfl
@[simp] theorem withTxs_status (v : List Byte) : (s.withTxs v).status = s.status := rfl
@[simp] theorem withTxs_ckAcc (v : List Byte) : (s.withTxs v).ckAcc = s.ckAcc := rfl
@[simp] theorem withTxs_errcnt (v : List Byte) : (s.withTxs v).errcnt = s.errcnt := rfl
@[simp] theorem withTxs_addr (v : List Byte) : (s.withTxs v).addr = s.addr := rfl
@[simp] theorem withTxs_rxhdr (v : List Byte) : (s.withTxs v).rxhdr = s.rxhdr := rfl
@[simp] theorem withTxs_rxinfo (v : List Byte) : (s.withTxs v).rxinfo = s.rxinfo := rfl
@[simp] theorem withTxs_mem (v : List Byte) : (s.withTxs v).mem = s.mem := rfl
@[simp] theorem withTxs_sync (v : List Byte) : (s.withTxs v).sync = s.sync := rfl
@[simp] theorem withTxs_txs (v : List Byte) : (s.withTxs v).txs = v := rfl
@[simp] theorem withTxs_rxs (v : List Byte) : (s.withTxs v).rxs = s.rxs := rfl
@[simp] theorem withTxs_host (v : List Byte) : (s.withTxs v).host = s.host := rfl
@[simp] theorem withTxs_schedule (v : List Byte) : (s.withTxs v).schedule = s.schedule := rfl
@[simp] theorem withTxs_resp (v : List Byte) : (s.withTxs v).resp = s.resp := rfl
@[simp] theorem withTxs_draws (v : List Byte) : (s.withTxs v).draws = s.draws := rfl

@[simp] theorem withRxs_ctrl (v : List Byte) : (s.withRxs v).ctrl = s.ctrl := rfl
@[simp] theorem withRxs_status (v : List Byte) : (s.withRxs v).status = s.status := rfl
@[simp] theorem withRxs_ckAcc (v : List Byte) : (s.withRxs v).ckAcc = s.ckAcc := rfl
@[simp] theorem withRxs_errcnt (v : List Byte) : (s.withRxs v).errcnt = s.errcnt := rfl
@[simp] theorem withRxs_addr (v : List Byte) : (s.withRxs v).addr = s.addr := rfl
@[simp] theorem withRxs_rxhdr (v : List Byte) : (s.withRxs v).rxhdr = s.rxhdr := rfl
@[simp] theorem withRxs_rxinfo (v : List Byte) : (s.withRxs v).rxinfo = s.rxinfo := rfl
@[simp] theorem withRxs_mem (v : List Byte) : (s.withRxs v).mem = s.mem := rfl
@[simp] theorem withRxs_sync (v : List Byte) : (s.withRxs v).sync = s.sync := rfl
@[simp] theorem withRxs_txs (v : List Byte) : (s.withRxs v).txs = s.txs := rfl
@[simp] theorem withRxs_rxs (v : List Byte) : (s.withRxs v).rxs = v := rfl
@[simp] theorem withRxs_host (v : List Byte) : (s.withRxs v).host = s.host := rfl
@[simp] theorem withRxs_schedule (v : List Byte) : (s.withRxs v).schedule = s.schedule := rfl
@[simp] theorem withRxs_resp (v : List Byte) : (s.withRxs v).resp = s.resp := rfl
@[simp] theorem withRxs_draws (v : List Byte) : (s.withRxs v).draws = s.draws := rfl

@[simp] theorem withHost_ctrl (v : List HostOp) : (s.withHost v).ctrl = s.ctrl := rfl
@[simp] theorem withHost_status (v : List HostOp) : (s.withHost v).status = s.status := rfl
@[simp] theorem withHost_ckAcc (v : List HostOp) : (s.withHost v).ckAcc = s.ckAcc := rfl
@[simp] theorem withHost_errcnt (v : List HostOp) : (s.withHost v).errcnt = s.errcnt := rfl
@[simp] theorem withHost_addr (v : List HostOp) : (s.withHost v).addr = s.addr := rfl
@[simp] theorem withHost_rxhdr (v : List HostOp) : (s.withHost v).rxhdr = s.rxhdr := rfl
@[simp] theorem withHost_rxinfo (v : List HostOp) : (s.withHost v).rxinfo = s.rxinfo := rfl
@[simp] theorem withHost_mem (v : List HostOp) : (s.withHost v).mem = s.mem := rfl
@[simp] theorem withHost_sync (v : List HostOp) : (s.withHost v).sync = s.sync := rfl
@[simp] theorem withHost_txs (v : List HostOp) : (s.withHost v).txs = s.txs := rfl
@[simp] theorem withHost_rxs (v : List HostOp) : (s.withHost v).rxs = s.rxs := rfl
@[simp] theorem withHost_host (v : List HostOp) : (s.withHost v).host = v := rfl
@[simp] theorem withHost_schedule (v : List HostOp) : (s.withHost v).schedule = s.schedule := rfl
@[simp] theorem withHost_resp (v : List HostOp) : (s.withHost v).resp = s.resp := rfl
@[simp] theorem withHost_draws (v : List HostOp) : (s.withHost v).draws = s.draws := rfl

@[simp] theorem withSchedule_ctrl (v : List Turn) : (s.withSchedule v).ctrl = s.ctrl := rfl
@[simp] theorem withSchedule_status (v : List Turn) : (s.withSchedule v).status = s.status := rfl
@[simp] theorem withSchedule_ckAcc (v : List Turn) : (s.withSchedule v).ckAcc = s.ckAcc := rfl
@[simp] theorem withSchedule_errcnt (v : List Turn) : (s.withSchedule v).errcnt = s.errcnt := rfl
@[simp] theorem withSchedule_addr (v : List Turn) : (s.withSchedule v).addr = s.addr := rfl
@[simp] theorem withSchedule_rxhdr (v : List Turn) : (s.withSchedule v).rxhdr = s.rxhdr := rfl
@[simp] theorem withSchedule_rxinfo (v : List Turn) : (s.withSchedule v).rxinfo = s.rxinfo := rfl
@[simp] theorem withSchedule_mem (v : List Turn) : (s.withSchedule v).mem = s.mem := rfl
@[simp] theorem withSchedule_sync (v : List Turn) : (s.withSchedule v).sync = s.sync := rfl
@[simp] theorem withSchedule_txs (v : List Turn) : (s.withSchedule v).txs = s.txs := rfl
@[simp] theorem withSchedule_rxs (v : List Turn) : (s.withSchedule v).rxs = s.rxs := rfl
@[simp] theorem withSchedule_host (v : List Turn) : (s.withSchedule v).host = s.host := rfl
@[simp] theorem withSchedule_schedule (v : List Turn) : (s.withSchedule v).schedule = v := rfl
@[simp] theorem withSchedule_resp (v : List Turn) : (s.withSchedule v).resp = s.resp := rfl
@[simp] theorem withSchedule_draws (v : List Turn) : (s.withSchedule v).draws = s.draws := rfl

@[simp] theorem withResp_ctrl (v : Response) : (s.withResp v).ctrl = s.ctrl := rfl
@[simp] theorem withResp_status (v : Response) : (s.withResp v).status = s.status := rfl
@[simp] theorem withResp_ckAcc (v : Response) : (s.withResp v).ckAcc = s.ckAcc := rfl
@[simp] theorem withResp_errcnt (v : Response) : (s.withResp v).errcnt = s.errcnt := rfl
@[simp] theorem withResp_addr (v : Response) : (s.withResp v).addr = s.addr := rfl
@[simp] theorem withResp_rxhdr (v : Response) : (s.withResp v).rxhdr = s.rxhdr := rfl
@[simp] theorem withResp_rxinfo (v : Response) : (s.withResp v).rxinfo = s.rxinfo := rfl
@[simp] theorem withResp_mem (v : Response) : (s.withResp v).mem = s.mem := rfl
@[simp] theorem withResp_sync (v : Response) : (s.withResp v).sync = s.sync := rfl
@[simp] theorem withResp_txs (v : Response) : (s.withResp v).txs = s.txs := rfl
@[simp] theorem withResp_rxs (v : Response) : (s.withResp v).rxs = s.rxs := rfl
@[simp] theorem withResp_host (v : Response) : (s.withResp v).host = s.host := rfl
@[simp] theorem withResp_schedule (v : Response) : (s.withResp v).schedule = s.schedule := rfl
@[simp] theorem withResp_resp (v : Response) : (s.withResp v).resp = v := rfl
@[simp] theorem withResp_draws (v : Response) : (s.withResp v).draws = s.draws := rfl

@[simp] theorem withDraws_ctrl (v : Nat) : (s.withDraws v).ctrl = s.ctrl := rfl
@[simp] theorem withDraws_status (v : Nat) : (s.withDraws v).status = s.status := rfl
@[simp] theorem withDraws_ckAcc (v : Nat) : (s.withDraws v).ckAcc = s.ckAcc := rfl
@[simp] theorem withDraws_errcnt (v : Nat) : (s.withDraws v).errcnt = s.errcnt := rfl
@[simp] theorem withDraws_addr (v : Nat) : (s.withDraws v).addr = s.addr := rfl
@[simp] theorem withDraws_rxhdr (v : Nat) : (s.withDraws v).rxhdr = s.rxhdr := rfl
@[simp] theorem withDraws_rxinfo (v : Nat) : (s.withDraws v).rxinfo = s.rxinfo := rfl
@[simp] theorem withDraws_mem (v : Nat) : (s.withDraws v).mem = s.mem := rfl
@[simp] theorem withDraws_sync (v : Nat) : (s.withDraws v).sync = s.sync := rfl
@[simp] theorem withDraws_txs (v : Nat) : (s.withDraws v).txs = s.txs := rfl
@[simp] theorem withDraws_rxs (v : Nat) : (s.withDraws v).rxs = s.rxs := rfl
@[simp] theorem withDraws_host (v : Nat) : (s.withDraws v).host = s.host := rfl
@[simp] theorem withDraws_schedule (v : Nat) : (s.withDraws v).schedule = s.schedule := rfl
@[simp] theorem withDraws_resp (v : Nat) : (s.withDraws v).resp = s.resp := rfl
@[simp] theorem withDraws_draws (v : Nat) : (s.withDraws v).draws = v := rfl

end Sys2Proof.Machine
end

