-- ==== Sys2Proof/Laws/Ops.lean ====
section
/-! SUPPORT. What each shared operation can do, said once: the error recordings, the return to HUNT, the
delivery, the eight meanings, the synchronizer's byte, a host access, a turn and a step. -/

namespace Sys2Proof.Machine

/-! The status updates, field by field. -/

@[simp] theorem setRxErrBit_rxfValid (k : RxErrKind) (t : Status) : (setRxErrBit k t).rxfValid = t.rxfValid := by cases k <;> rfl
@[simp] theorem setRxErrBit_cmderr (k : RxErrKind) (t : Status) : (setRxErrBit k t).cmderr = t.cmderr := by cases k <;> rfl
@[simp] theorem setRxErrBit_code (k : RxErrKind) (t : Status) : (setRxErrBit k t).code = t.code := by cases k <;> rfl
@[simp] theorem setCmdErr_rxfValid (c : CmdErrCode) (t : Status) : (setCmdErr c t).rxfValid = t.rxfValid := rfl
@[simp] theorem setCmdErr_herr (c : CmdErrCode) (t : Status) : (setCmdErr c t).herr = t.herr := rfl
@[simp] theorem setCmdErr_berr (c : CmdErrCode) (t : Status) : (setCmdErr c t).berr = t.berr := rfl
@[simp] theorem setCmdErr_lerr (c : CmdErrCode) (t : Status) : (setCmdErr c t).lerr = t.lerr := rfl
@[simp] theorem setCmdErr_cmderr (c : CmdErrCode) (t : Status) : (setCmdErr c t).cmderr = true := rfl
@[simp] theorem setCmdErr_code (c : CmdErrCode) (t : Status) : (setCmdErr c t).code = c := rfl
@[simp] theorem clearSticky_rxfValid (t : Status) : (clearSticky t).rxfValid = t.rxfValid := rfl
@[simp] theorem clearSticky_herr (t : Status) : (clearSticky t).herr = false := rfl
@[simp] theorem clearSticky_berr (t : Status) : (clearSticky t).berr = false := rfl
@[simp] theorem clearSticky_lerr (t : Status) : (clearSticky t).lerr = false := rfl
@[simp] theorem clearSticky_cmderr (t : Status) : (clearSticky t).cmderr = false := rfl
@[simp] theorem clearSticky_code (t : Status) : (clearSticky t).code = .none := rfl
@[simp] theorem setRxfValid_rxfValid (v : Bool) (t : Status) : (setRxfValid v t).rxfValid = v := rfl
@[simp] theorem setRxfValid_herr (v : Bool) (t : Status) : (setRxfValid v t).herr = t.herr := rfl
@[simp] theorem setRxfValid_berr (v : Bool) (t : Status) : (setRxfValid v t).berr = t.berr := rfl
@[simp] theorem setRxfValid_lerr (v : Bool) (t : Status) : (setRxfValid v t).lerr = t.lerr := rfl
@[simp] theorem setRxfValid_cmderr (v : Bool) (t : Status) : (setRxfValid v t).cmderr = t.cmderr := rfl
@[simp] theorem setRxfValid_code (v : Bool) (t : Status) : (setRxfValid v t).code = t.code := rfl

/-- `raise CmdError` changes the status register alone (60_exceptions.md R224). -/
theorem raiseCmdError_eq (c : CmdErrCode) (s : State) :
    raiseCmdError c s = { s with status := { s.status with cmderr := true, code := c } } := rfl

/-- `recordRxError` changes `ERRCNT` and the status register alone (60_exceptions.md R221). -/
theorem recordRxError_eq (k : RxErrKind) (s : State) :
    recordRxError k s = { s with errcnt := s.errcnt + 1, status := setRxErrBit k s.status } := rfl

/-- The return to HUNT changes the synchronizer's internal state alone, and keeps `BLEN`. -/
theorem toHunt_eq (s : State) : toHunt s = { s with sync := { s.sync with state := .hunt, hb := [], bb := [] } } := rfl

/-- A delivery changes `RXHDR`, `RXINFO`, `RXBUF` and `RXF_VALID` alone (42_synchronizer.md R172). -/
theorem deliver_eq (bb : List Byte) (s : State) :
    deliver bb s = { s with
      rxhdr := { sof := s.sync.hb.getD 0 0, proto := s.sync.hb.getD 1 0, src := s.sync.hb.getD 2 0, dst := s.sync.hb.getD 3 0 }
      rxinfo := { seq := s.sync.hb.getD 4 0, blen := s.sync.blen, type := bb.getD 0 0 }
      mem := memWriteRun s.mem rxbufBase ((bb.take s.sync.blen.toNat).drop 1)
      status := { s.status with rxfValid := true } } := rfl

/-- What a command's meaning can leave: nine shapes, one per command and one for the refused frame. -/
theorem exec_next_cases {i : Instr} {s t : State} (h : exec i s = .next t) :
    (i = .nop ∧ t = s) ∨
    (i = .ckInit ∧ t = s.withCkAcc Config.ckInitValue) ∨
    (∃ b, i = .ckFeed b ∧ t = s.withCkAcc (ckstep s.ckAcc b)) ∨
    (∃ ty n, i = .txFrame ty n ∧ Config.maxPayload < n.toNat ∧ t = raiseCmdError .payloadTooLarge s) ∨
    (∃ ty n, i = .txFrame ty n ∧ n.toNat ≤ Config.maxPayload ∧
      t = advanceSeq (lineSend (frameOf s.addr ty n (txPayload s n)) s)) ∨
    (i = .rxPop ∧ t = s.withStatus (setRxfValid false s.status)) ∨
    (i = .rxFlush ∧ t = toHunt s) ∨
    (i = .errClr ∧ t = s.withErrcnt 0) ∨
    (i = .stClr ∧ t = s.withStatus (clearSticky s.status)) := by
  cases i with
  | nop => simp [exec, execNop] at h; simp [h]
  | ckInit => simp [exec, execCkInit] at h; simp [h]
  | ckFeed b => simp [exec, execCkFeed] at h; simp [h]
  | txFrame ty n =>
    by_cases hn : n.toNat > Config.maxPayload
    · simp only [exec, execTxFrame, hn, if_true, Host.Outcome.next.injEq] at h
      exact .inr (.inr (.inr (.inl ⟨ty, n, rfl, hn, h.symm⟩)))
    · simp only [exec, execTxFrame, hn, if_false, Host.Outcome.next.injEq] at h
      exact .inr (.inr (.inr (.inr (.inl ⟨ty, n, rfl, by omega, h.symm⟩))))
  | rxPop => simp [exec, execRxPop] at h; simp [h]
  | rxFlush => simp [exec, execRxFlush] at h; simp [h]
  | errClr => simp [exec, execErrClr] at h; simp [h]
  | stClr => simp [exec, execStClr] at h; simp [h]

/-- No command's meaning stops. -/
theorem exec_completes (i : Instr) (s : State) : ∃ t, exec i s = .next t := by
  cases i with
  | txFrame ty n =>
    by_cases hn : n.toNat > Config.maxPayload
    · exact ⟨_, if_pos hn⟩
    · exact ⟨_, if_neg hn⟩
  | _ => exact ⟨_, rfl⟩

/-- What the end of a complete body can leave (42_synchronizer.md R171 to R173). -/
theorem bodyDone_cases (bb : List Byte) (s : State) :
    (ck (bb.take s.sync.blen.toNat) ≠ be16 (bb.getD s.sync.blen.toNat 0) (bb.getD (s.sync.blen.toNat + 1) 0) ∧
      bodyDone bb s = toHunt (recordRxError .bodyMismatch s)) ∨
    (ck (bb.take s.sync.blen.toNat) = be16 (bb.getD s.sync.blen.toNat 0) (bb.getD (s.sync.blen.toNat + 1) 0) ∧
      s.sync.blen.toNat = 0 ∧ bodyDone bb s = toHunt (recordRxError .emptyBody s)) ∨
    (ck (bb.take s.sync.blen.toNat) = be16 (bb.getD s.sync.blen.toNat 0) (bb.getD (s.sync.blen.toNat + 1) 0) ∧
      s.sync.blen.toNat ≠ 0 ∧ bodyDone bb s = toHunt (deliver bb s)) := by
  unfold bodyDone
  dsimp only
  split
  · rename_i hc; exact .inl ⟨hc, rfl⟩
  · rename_i hc
    rw [ne_eq, not_not] at hc
    split
    · rename_i hn; exact .inr (.inl ⟨hc, hn, rfl⟩)
    · rename_i hn; exact .inr (.inr ⟨hc, hn, rfl⟩)

/-- What a byte taken by the synchronizer can leave (42_synchronizer.md R163 to R173). -/
theorem rxByte_cases (b : Byte) (s : State) :
    (s.sync.state = .hunt ∧ b = Config.syncByte ∧ rxByte b s = s) ∨
    (s.sync.state = .hunt ∧ b ≠ Config.syncByte ∧
      rxByte b s = s.withSync { s.sync with state := .header, hb := [b] }) ∨
    (s.sync.state = .header ∧ (s.sync.hb ++ [b]).length ≠ 8 ∧
      rxByte b s = s.withSync { s.sync with hb := s.sync.hb ++ [b] }) ∨
    (s.sync.state = .header ∧ (s.sync.hb ++ [b]).length = 8 ∧ headerValid (s.sync.hb ++ [b]) = true ∧
      rxByte b s = s.withSync { state := .body, hb := s.sync.hb ++ [b], bb := [], blen := (s.sync.hb ++ [b]).getD 5 0 }) ∨
    (s.sync.state = .header ∧ (s.sync.hb ++ [b]).length = 8 ∧ headerValid (s.sync.hb ++ [b]) = false ∧
      rxByte b s = toHunt (recordRxError .headerMismatch s)) ∨
    (s.sync.state = .body ∧ (s.sync.bb ++ [b]).length ≠ s.sync.blen.toNat + 2 ∧
      rxByte b s = s.withSync { s.sync with bb := s.sync.bb ++ [b] }) ∨
    (s.sync.state = .body ∧ (s.sync.bb ++ [b]).length = s.sync.blen.toNat + 2 ∧
      rxByte b s = bodyDone (s.sync.bb ++ [b]) s) := by
  cases hst : s.sync.state with
  | hunt => by_cases hb : b = Config.syncByte <;> simp [rxByte, hst, huntByte, hb]
  | header =>
    by_cases hl : (s.sync.hb ++ [b]).length = 8
    · cases hv : headerValid (s.sync.hb ++ [b]) <;> simp [rxByte, hst, headerByte, hl, hv]
    · exact .inr (.inr (.inl ⟨rfl, hl, by simp only [rxByte, hst, headerByte]; exact if_neg hl⟩))
  | body =>
    by_cases hl : (s.sync.bb ++ [b]).length = s.sync.blen.toNat + 2
    · simp only [rxByte, hst, bodyByte, hl, if_true]; simp
    · simp only [rxByte, hst, bodyByte, hl, if_false]; simpa using hl

/-- What a legal host write can do (43_control.md R201, R204, R205; 10_state.md R26; 20_memory.md R63). -/
theorem writeEffect_next_cases {addr : HostAddr} {n : Nat} {v : Word} {s t : State}
    (h : writeEffect addr n v s = .next t) :
    t = s ∨ t = s.withCtrl (ctrlOfWord v) ∨ t = s.withAddr (addrOfWord v) ∨
    (regionOf addr = .txbuf ∧ t = s.withMem (writeBuf s.mem addr.toNat n v)) ∨
    (regionOf addr = .registers ∧ regAt addr = .cmd ∧
      ((∃ i, decode v = .ok i ∧ exec i s = .next t) ∨
       (∃ e, decode v = .error e ∧ t = raiseCmdError .illegalCommand s))) := by
  unfold writeEffect at h
  split at h
  · unfold writeReg at h
    split at h
    all_goals try (simp only [Host.Outcome.next.injEq] at h; simp [h])
    unfold commandWrite at h
    split at h
    · simp_all
    · simp only [Host.Outcome.next.injEq] at h; simp_all
  all_goals simp only [Host.Outcome.next.injEq] at h; simp_all

/-- No legal host write stops. -/
theorem writeEffect_completes (addr : HostAddr) (n : Nat) (v : Word) (s : State) :
    ∃ t, writeEffect addr n v s = .next t := by
  unfold writeEffect
  split
  · unfold writeReg
    split
    all_goals try exact ⟨_, rfl⟩
    unfold commandWrite
    split
    · exact exec_completes _ _
    · exact ⟨_, rfl⟩
  all_goals exact ⟨_, rfl⟩

/-- What a host access that answers can do. -/
theorem hostAccess_next_cases {a : Access} {s t : State} (h : hostAccess a s = .next t) :
    (∃ addr n, a = .read addr n ∧ legalAccess addr n = true ∧ t = s.withResp (.data n (readValue addr n s))) ∨
    (∃ addr n v, a = .write addr n v ∧ legalAccess addr n = true ∧ writeEffect addr n v (s.withResp .done) = .next t) := by
  cases a with
  | read addr n =>
    cases hl : legalAccess addr n <;> simp [hostAccess, hl] at h
    simp [hl, h]
  | write addr n v =>
    cases hl : legalAccess addr n <;> simp [hostAccess, hl] at h
    simp [hl, h]

/-- What a host turn that answers can do. -/
theorem hostTurn_next_cases {s t : State} (h : hostTurn s = .next t) :
    (s.host = [] ∧ t = s) ∨
    (∃ a ops, s.host = .access a :: ops ∧ hostAccess a (s.withHost ops) = .next t) ∨
    (∃ ops r, (∃ op rest, s.host = op :: rest ∧ ∀ a, op ≠ .access a) ∧ t = (s.withHost ops).withResp r) := by
  unfold hostTurn at h
  split at h
  · simp only [Host.Outcome.next.injEq] at h; simp_all
  · rename_i a ops e; exact .inr (.inl ⟨a, ops, e, h⟩)
  · rename_i ops e
    have hl : legalAccess (regOffset .status) 4 = true := by decide
    simp only [hostAccess, hl, if_true, Host.Outcome.next.injEq] at h
    by_cases hw : waitAgain (statusWord s) = true
    · rw [if_pos hw] at h
      exact .inr (.inr ⟨s.host, _, ⟨_, _, e, by simp⟩, h.symm⟩)
    · rw [if_neg hw] at h
      exact .inr (.inr ⟨ops, _, ⟨_, _, e, by simp⟩, h.symm⟩)
  · rename_i ops e
    have hl : legalAccess (regOffset .rxinfo) 4 = true := by decide
    simp only [hostAccess, hl, if_true, Host.Outcome.next.injEq] at h
    exact .inr (.inr ⟨_, _, ⟨_, _, e, by simp⟩, h.symm⟩)

/-- A scheduled turn is the step. -/
theorem step_scheduled {s : State} {u : Turn} {us : List Turn} (h : s.schedule = u :: us) :
    step s = takeTurn u (s.withSchedule us) := by
  simp [step, nextTurn, h]

/-- With nothing scheduled the synchronizer moves first, then the host (log 2). -/
theorem step_unscheduled {s : State} (h : s.schedule = []) : step s = unscheduledTurn s := by
  simp [step, nextTurn, h]

/-- The synchronizer's turn takes the oldest byte of `RXS`, or does nothing (42_synchronizer.md R161). -/
theorem syncTurn_cases (s : State) :
    (rxEnabled s = false ∧ syncTurn s = s) ∨
    (rxEnabled s = true ∧ ∃ b bs, s.rxs = b :: bs ∧ syncTurn s = rxByte b (s.withRxs bs)) := by
  cases he : rxEnabled s with
  | false => simp [syncTurn, he]
  | true =>
    cases hr : s.rxs with
    | nil => simp [rxEnabled, hr] at he
    | cons b bs => exact .inr ⟨rfl, b, bs, rfl, by simp [syncTurn, he, rxStep, hr]⟩

/-- Everything a step that answers can be, and whose turn it is: the synchronizer's, the host's, a line action, a
reset. The state it starts from differs from `s` in the schedule alone. -/
theorem step_next_cases {s t : State} (h : step s = .next t) :
    ∃ us, (us = s.schedule ∨ us = s.schedule.tail) ∧
      ((SyncMovesNext s ∧ t = syncTurn (s.withSchedule us)) ∨
       (HostMovesNext s ∧ hostTurn (s.withSchedule us) = .next t) ∨
       (∃ b, s.schedule = .lineIn b :: us ∧ t = lineAppend b (s.withSchedule us)) ∨
       (s.schedule = .lineOut :: us ∧ t = lineTake (s.withSchedule us)) ∨
       (s.schedule = .reset :: us ∧ t = assertReset (s.withSchedule us))) := by
  cases hs : s.schedule with
  | nil =>
    have e : s.withSchedule [] = s := by cases s; simp_all [State.withSchedule]
    rw [step_unscheduled hs, unscheduledTurn] at h
    refine ⟨[], .inl rfl, ?_⟩
    rw [e]
    split at h
    · rename_i he
      simp only [Host.Outcome.next.injEq] at h
      exact .inl ⟨.inr ⟨hs, he⟩, by rw [← h, syncTurn, if_pos he]⟩
    · rename_i he
      exact .inr (.inl ⟨.inr ⟨hs, by simpa using he⟩, h⟩)
  | cons u us =>
    rw [step_scheduled hs] at h
    refine ⟨us, .inr rfl, ?_⟩
    cases u <;> simp_all [takeTurn, SyncMovesNext, HostMovesNext]

/-- A step that faults is the host's own, on an access it refuses. -/
theorem step_fault_cases {s : State} {addr : HostAddr} (h : step s = .fault (.busError addr)) :
    HostMovesNext s ∧ ∃ us, hostTurn (s.withSchedule us) = .fault (.busError addr) := by
  cases hs : s.schedule with
  | nil =>
    have e : s.withSchedule [] = s := by cases s; simp_all [State.withSchedule]
    rw [step_unscheduled hs, unscheduledTurn] at h
    split at h
    · simp at h
    · rename_i he
      exact ⟨.inr ⟨hs, by simpa using he⟩, [], by rwa [e]⟩
  | cons u us =>
    rw [step_scheduled hs] at h
    cases u with
    | host => exact ⟨.inl (by rw [hs]; rfl), us, h⟩
    | _ => simp [takeTurn] at h

end Sys2Proof.Machine
end

