-- ==== Sys2Proof/Laws/HostPort.lean ====
section
/-! SUPPORT. The host port's map and legality in the numbers of 20_memory.md R60 and R62, and what a host turn
that is due does. -/

namespace Sys2Proof.Machine

theorem regionOf_txbuf {addr : HostAddr} (h1 : 0x100 ≤ addr.toNat) (h2 : addr.toNat < 0x200) :
    regionOf addr = .txbuf := by
  simp only [regionOf]
  rw [if_neg (by omega), if_neg (by omega), if_pos h2]

theorem regionOf_rxbuf {addr : HostAddr} (h1 : 0x200 ≤ addr.toNat) (h2 : addr.toNat < 0x300) :
    regionOf addr = .rxbuf := by
  simp only [regionOf]
  rw [if_neg (by omega), if_neg (by omega), if_neg (by omega), if_pos h2]

theorem regionOf_registers {addr : HostAddr} : regionOf addr = .registers ↔ addr.toNat < 0x020 := by
  simp only [regionOf]
  repeat' split
  all_goals simp; omega

/-- The model's legality is the rule's (20_memory.md R62). -/
theorem legalAccess_iff (addr : HostAddr) (n : Nat) : legalAccess addr n = true ↔ LegalByR62 addr n := by
  simp only [legalAccess, regionOf, LegalByR62]
  split <;> rename_i h <;>
    (split at h <;> [skip; split at h <;> [skip; split at h <;> [skip; split at h]]]) <;> simp_all <;> omega

/-- The one legal access that names `CMD` (10_state.md R22, 20_memory.md R62). -/
theorem cmd_legalAccess {addr : HostAddr} {n : Nat} (hl : LegalByR62 addr n) (hr : regionOf addr = .registers)
    (h : regAt addr = .cmd) : addr = 0x008 ∧ n = 4 := by
  have h2 := regionOf_registers.mp hr
  obtain ⟨_, rfl, h4⟩ | ⟨h5, _⟩ := hl
  · have hq : addr.toNat / 4 < 8 := by omega
    have : addr.toNat / 4 = 2 := by
      unfold regAt at h
      generalize addr.toNat / 4 = q at *
      interval_cases q <;> simp_all
    exact ⟨BitVec.eq_of_toNat_eq (by simp; omega), rfl⟩
  · omega

/-- A 1-byte buffer read is its byte in bits 7:0 (20_memory.md R64). -/
theorem readBuf_one (m : Memory) (a : Nat) : readBuf m a 1 = (memByte m a).setWidth 32 := by
  simp [readBuf, atLane]

/-- A host access that is due is the step. -/
theorem step_hostDue {s : State} {a : Access} {ops : List HostOp} {ts : List Turn} (h : HostDue s a ops ts) :
    step s = hostAccess a ((s.withSchedule ts).withHost ops) := by
  rw [step_scheduled h.1]
  simp [takeTurn, hostTurn, h.2]

/-- A legal write to `TXBUF` that is due: memory and the host's own state change, nothing else (43_control.md R205). -/
theorem step_txbufWrite {s : State} {addr : HostAddr} {n : Nat} {v : Word} {ops : List HostOp} {ts : List Turn}
    (h : HostDue s (.write addr n v) ops ts) (hl : LegalByR62 addr n) (h1 : 0x100 ≤ addr.toNat) (h2 : addr.toNat < 0x200) :
    step s = .next ((answered s .done ops ts).withMem (writeBuf s.mem addr.toNat n v)) := by
  rw [step_hostDue h, hostAccess, if_pos ((legalAccess_iff _ _).mpr hl), writeEffect, regionOf_txbuf h1 h2]; rfl

/-- A legal read of either buffer that is due: the host's own state changes, nothing else (20_memory.md R64). -/
theorem step_bufferRead {s : State} {addr : HostAddr} {n : Nat} {ops : List HostOp} {ts : List Turn}
    (h : HostDue s (.read addr n) ops ts) (hl : LegalByR62 addr n) (h1 : 0x100 ≤ addr.toNat) :
    step s = .next (answered s (.data n (readBuf s.mem addr.toNat n)) ops ts) := by
  have hr : regionOf addr ≠ .registers := by rw [ne_eq, regionOf_registers]; omega
  rw [step_hostDue h, hostAccess, if_pos ((legalAccess_iff _ _).mpr hl), readValue]
  split
  · contradiction
  · rfl

/-- A synchronizer's turn that is due is the step. -/
theorem step_syncDue {s : State} {ts : List Turn} (h : SyncDue s ts) :
    step s = .next (syncTurn (s.withSchedule ts)) := by
  rw [step_scheduled h]; rfl

end Sys2Proof.Machine
end

