-- ==== Sys2Proof/Laws/Words.lean ====
section
/-! SUPPORT. The laws of bit fields, byte order and command words, and the lengths of sealed spans and frames. -/

namespace Sys2Proof

@[simp] theorem opField_packWord (op a b : Byte) : opField (packWord op a b) = op := by
  apply BitVec.eq_of_getLsbD_eq
  intro i hi
  interval_cases i <;> simp [opField, packWord]

@[simp] theorem aField_packWord (op a b : Byte) : aField (packWord op a b) = a := by
  apply BitVec.eq_of_getLsbD_eq
  intro i hi
  interval_cases i <;> simp [aField, packWord]

@[simp] theorem bField_packWord (op a b : Byte) : bField (packWord op a b) = b := by
  apply BitVec.eq_of_getLsbD_eq
  intro i hi
  interval_cases i <;> simp [bField, packWord]

/-- A word decodes to a command only under that command's opcode (30_encoding.md R98). -/
theorem opField_of_decode {w : Word} {i : Instr} (h : decode w = .ok i) : opField w = opField (encode i) := by
  apply BitVec.eq_of_toNat_eq
  unfold decode at h
  split at h <;> simp at h <;> subst h <;> simpa [encode] using ‹_›

end Sys2Proof

namespace Sys2Proof.Machine

/-- Four lanes as one concatenation, highest address first (20_memory.md R64). -/
theorem wordOfLanes_eq_append (b0 b1 b2 b3 : Byte) :
    wordOfLanes b0 b1 b2 b3 = (b3 ++ b2 ++ b1 ++ b0 : BitVec 32) := by
  apply BitVec.eq_of_getLsbD_eq
  intro i hi
  simp only [BitVec.getLsbD_append, wordOfLanes, atLane, BitVec.getLsbD_or, BitVec.getLsbD_shiftLeft, BitVec.getLsbD_setWidth]
  interval_cases i <;> simp

/-- The two checksum bytes of the wire, put together again (00_scope.md R12). -/
@[simp] theorem be16_hi8_lo8 (c : Half) : be16 (hi8 c) (lo8 c) = c := by
  apply BitVec.eq_of_getLsbD_eq
  intro i hi
  interval_cases i <;> simp [be16, hi8, lo8]

@[simp] theorem hi8_be16 (a b : Byte) : hi8 (be16 a b) = a := by
  apply BitVec.eq_of_getLsbD_eq
  intro i hi
  interval_cases i <;> simp [be16, hi8]

@[simp] theorem lo8_be16 (a b : Byte) : lo8 (be16 a b) = b := by
  apply BitVec.eq_of_getLsbD_eq
  intro i hi
  interval_cases i <;> simp [be16, lo8]

/-- The lanes of a value, put together again (20_memory.md R64). -/
@[simp] theorem wordOfLanes_lane (v : Word) : wordOfLanes (lane v 0) (lane v 1) (lane v 2) (lane v 3) = v := by
  apply BitVec.eq_of_getLsbD_eq
  intro i hi
  interval_cases i <;> simp [wordOfLanes, atLane, lane]

@[simp] theorem lane_wordOfLanes (b0 b1 b2 b3 : Byte) :
    lanesOfWord (wordOfLanes b0 b1 b2 b3) = [b0, b1, b2, b3] := by
  simp only [lanesOfWord, List.cons.injEq, and_true]
  refine ⟨?_, ?_, ?_, ?_⟩ <;>
    (apply BitVec.eq_of_getLsbD_eq; intro i hi; interval_cases i <;> simp [wordOfLanes, atLane, lane])

@[simp] theorem ctrlOfWord_ctrlWord (c : Ctrl) : ctrlOfWord (ctrlWord c) = c := by
  obtain ⟨a, b, d, e⟩ := c
  cases a <;> cases b <;> cases d <;> cases e <;> rfl

@[simp] theorem addrOfWord_addrWord (a : Addr) : addrOfWord (addrWord a) = a := by
  obtain ⟨x, y, z⟩ := a
  simp only [addrOfWord, addrWord, Addr.mk.injEq]
  refine ⟨?_, ?_, ?_⟩ <;>
    (apply BitVec.eq_of_getLsbD_eq; intro i hi; interval_cases i <;> simp [atLane, lane])

theorem ckRun_append (c : Half) (as bs : List Byte) : ckRun c (as ++ bs) = ckRun (ckRun c as) bs := by
  induction as generalizing c with
  | nil => rfl
  | cons a as ih => simp [ckRun, ih]

@[simp] theorem sealed_length (bs : List Byte) : (sealed bs).length = bs.length + 2 := by simp [sealed]

@[simp] theorem memRun_length (m : Memory) (a n : Nat) : (memRun m a n).length = n := by simp [memRun]

@[simp] theorem frameOf_length (a : Addr) (t n : Byte) (ps : List Byte) :
    (frameOf a t n ps).length = ps.length + 11 := by
  simp [frameOf, headerFields]; omega

/-- One shift is linear. -/
theorem ckShift_xor (x y : Half) : ckShift (x ^^^ y) = ckShift x ^^^ ckShift y := by
  have h : ∀ r : Half, ckShift r = r <<< 1 ^^^ (bif r.getLsbD 15 then Config.ckPoly else 0) := by
    intro r
    unfold ckShift
    cases r.getLsbD 15 <;> simp
  rw [h, h, h, BitVec.shiftLeft_xor_distrib, BitVec.getLsbD_xor]
  cases x.getLsbD 15 <;> cases y.getLsbD 15 <;>
    simp only [Bool.xor_false, Bool.xor_true, Bool.not_true, Bool.not_false, cond_true, cond_false, BitVec.ofNat_eq_ofNat,
      BitVec.xor_zero]
  · ac_rfl
  · ac_rfl
  · calc x <<< 1 ^^^ y <<< 1
        = x <<< 1 ^^^ y <<< 1 ^^^ (Config.ckPoly ^^^ Config.ckPoly) := by simp
      _ = _ := by ac_rfl

theorem ckShifts_xor (k : Nat) (x y : Half) : ckShifts k (x ^^^ y) = ckShifts k x ^^^ ckShifts k y := by
  induction k generalizing x y with
  | zero => rfl
  | succ k ih => simp [ckShifts, ckShift_xor, ih]

/-- One byte step is linear in the register and the byte together. -/
theorem ckstep_xor (c d : Half) (a b : Byte) : ckstep (c ^^^ d) (a ^^^ b) = ckstep c a ^^^ ckstep d b := by
  simp only [ckstep, ← ckShifts_xor, BitVec.setWidth_xor, BitVec.shiftLeft_xor_distrib]
  congr 1; ac_rfl

end Sys2Proof.Machine
end

