-- ==== Sys2Proof/Laws/PerInstr.lean ====
section
/-! SUPPORT. Statements about every command as syntax, one lemma per constructor. -/

namespace Sys2Proof.Laws.EncodeInMask

/-- A command's word has no bit outside the fields the command uses (30_encoding.md R99, R103). -/
def Statement (i : Instr) : Prop := encode i &&& usedMask i = encode i

theorem nop : Statement .nop := by simp [Statement, encode, usedMask, packWord]

theorem ckInit : Statement .ckInit := by simp [Statement, encode, usedMask, packWord]

theorem ckFeed (b : Byte) : Statement (.ckFeed b) := by
  apply BitVec.eq_of_getLsbD_eq
  intro i hi
  interval_cases i <;> simp [encode, usedMask, packWord]

theorem txFrame (t n : Byte) : Statement (.txFrame t n) := by
  apply BitVec.eq_of_getLsbD_eq
  intro i hi
  interval_cases i <;> simp [encode, usedMask, packWord]

theorem rxPop : Statement .rxPop := by simp [Statement, encode, usedMask, packWord]

theorem rxFlush : Statement .rxFlush := by simp [Statement, encode, usedMask, packWord]

theorem errClr : Statement .errClr := by simp [Statement, encode, usedMask, packWord]

theorem stClr : Statement .stClr := by simp [Statement, encode, usedMask, packWord]

end Sys2Proof.Laws.EncodeInMask
end

