-- ==== Sys2Proof/Tests/Slice0.lean ====
section
/-! SUPPORT. Tests: decoding words written out from 30_encoding.md, the assembler's refusals, single steps with the
results of 95_test_vectors.md and of the rules' examples, and a witness for the premises of each statement. -/

set_option Elab.async false

namespace Sys2Proof.Tests

open Sys2Proof Sys2Proof.Machine

/-! ## Command words, bit by bit from 30_encoding.md R90 and R98 (OP, A, B, C) -/

theorem test_decode_nop : decode (0b00000000#8 ++ 0b11111111#8 ++ 0b11111111#8 ++ 0b11111111#8) = .ok .nop := by decide +kernel
theorem test_decode_ck_init : decode (0b00000001#8 ++ 0b00000000#8 ++ 0b00000000#8 ++ 0b00000000#8) = .ok .ckInit := by decide +kernel
theorem test_decode_ck_feed :
    decode (0b00000010#8 ++ 0b01001011#8 ++ 0b11111111#8 ++ 0b11111111#8) = .ok (.ckFeed 0b01001011) := by decide +kernel
theorem test_decode_tx_frame :
    decode (0b00010000#8 ++ 0b00100010#8 ++ 0b00000101#8 ++ 0b10101010#8) = .ok (.txFrame 0b00100010 0b00000101) := by decide +kernel
theorem test_decode_rx_pop : decode (0b00100000#8 ++ 0#24) = .ok .rxPop := by decide +kernel
theorem test_decode_rx_flush : decode (0b00100001#8 ++ 0#24) = .ok .rxFlush := by decide +kernel
theorem test_decode_err_clr : decode (0b00110000#8 ++ 0#24) = .ok .errClr := by decide +kernel
theorem test_decode_st_clr : decode (0b00110001#8 ++ 0#24) = .ok .stClr := by decide +kernel
theorem test_decode_refuses_neighbours :
    [0x03, 0x0F, 0x11, 0x1F, 0x22, 0x2F, 0x32, 0xFF].map (fun op : Byte => decode (op ++ 0#24)) =
      [0x03, 0x0F, 0x11, 0x1F, 0x22, 0x2F, 0x32, 0xFF].map (fun op : Byte => .error (.illegalOpcode op)) := by decide +kernel
theorem test_table_word : decodeTableWord 32 0x10220500 = some (.txFrame 0x22 0x05) := by decide +kernel

/-! ## The assembler (30_encoding.md R103 to R105): accepted lines, and an ill-formed term for each check -/

theorem smoke_ckFeed_operand : AsmLine.wf (.ckFeed 256) = false := by decide +kernel
theorem smoke_txFrame_type : AsmLine.wf (.txFrame 256 0) = false := by decide +kernel
theorem smoke_txFrame_length : AsmLine.wf (.txFrame 0 256) = false := by decide +kernel
theorem smoke_wr32_offset : AsmLine.wf (.wr32 0x1000 0) = false := by decide +kernel
theorem smoke_wr32_value : AsmLine.wf (.wr32 0 0x100000000) = false := by decide +kernel
theorem smoke_wr8_offset : AsmLine.wf (.wr8 0x1000 0) = false := by decide +kernel
theorem smoke_wr8_value : AsmLine.wf (.wr8 0x100 256) = false := by decide +kernel
theorem smoke_rd32_offset : AsmLine.wf (.rd32 0x1000) = false := by decide +kernel
theorem smoke_rd8_offset : AsmLine.wf (.rd8 0x1000) = false := by decide +kernel
theorem smoke_cksum_byte : AsmLine.wf (.cksum [0, 256]) = false := by decide +kernel
theorem smoke_loadtx_byte : AsmLine.wf (.loadtx [256]) = false := by decide +kernel
theorem smoke_loadtx_length : AsmLine.wf (.loadtx (List.replicate 0xF01 0)) = false := by decide +kernel
theorem smoke_send_type : AsmLine.wf (.send 256 []) = false := by decide +kernel
theorem smoke_send_byte : AsmLine.wf (.send 0 [256]) = false := by decide +kernel
theorem smoke_send_length : AsmLine.wf (.send 0 (List.replicate 256 0)) = false := by decide +kernel
theorem test_boundary_lines_wf :
    [AsmLine.ckFeed 255, .txFrame 255 255, .wr32 0xFFF 0xFFFFFFFF, .wr8 0xFFF 255, .rd32 0xFFF, .rd8 0xFFF].all AsmLine.wf = true := by
  decide +kernel
theorem test_parse_tx_frame : parseLine "TX_FRAME 0x22, 5".toList = some (.txFrame 0x22 5) := by decide +kernel
theorem test_parse_register_name : parseLine "WR32 ADDR, 0xFFC0".toList = some (.wr32 0x014 0xFFC0) := by decide +kernel
theorem test_parse_send : parseLine "SEND 0x22, [18, 0x34]".toList = some (.send 0x22 [18, 52]) := by decide +kernel

/-! ## Small states -/

/-- The address register of 95_test_vectors.md: `ADDR = 0x0000FFC0`. -/
def addrC0 : Addr := { src := 0xC0, dst := 0xFF, seq := 0x00 }

/-- After reset, with that address. -/
def base : State := { State.reset with addr := addrC0 }

/-- The host's turn, with one access pending. -/
def hostDue (a : Access) : State := { base with host := [.access a], schedule := [.host] }

/-- The host's turn, with one command word pending. -/
def cmdDue (w : Word) : State := hostDue (.write 0x008 4 w)

/-- Receiving, with the bytes `rs` waiting and `k` turns of the synchronizer scheduled. -/
def receiving (k : Nat) (rs : List Byte) : State :=
  { base with ctrl := { rxEn := true, seqInc := false, rxie := false, errie := false }, rxs := rs
              schedule := List.replicate k .sync }

/-- Vector TX-1. -/
def tx1 : List Byte := [0x4B, 0x00, 0xC0, 0xFF, 0x00, 0x01, 0x7D, 0x35, 0x22, 0x37, 0x11]

/-- The header of vector TX-6, `bodyLen` 2, and a body of type 22 and payload AB (vector RX-9). -/
def hdr2 : List Byte := [0x4B, 0x00, 0xC0, 0xFF, 0x00, 0x02, 0x4D, 0x56]

/-- Seven header bytes of TX-1 collected. -/
def inHeader : State := { receiving 1 [0x35] with sync := { state := .header, hb := tx1.take 7, bb := [], blen := 0 } }

/-- In BODY, with the header `hb` and the body bytes `bb` collected, `blen` latched, and `b` waiting. -/
def inBody (hb bb : List Byte) (blen b : Byte) : State :=
  { receiving 1 [b] with sync := { state := .body, hb := hb, bb := bb, blen := blen }
                         mem := memWrite (memWrite State.reset.mem 0x200 0) 0x100 0 }

/-- A frame is held. -/
def held : State :=
  { base with status := { State.reset.status with rxfValid := true }, rxinfo := { seq := 0, blen := 1, type := 0x22 }
              rxhdr := { sof := 0x4B, proto := 0, src := 0xC0, dst := 0xFF }, host := [.access (.write 0x008 4 0x20000000)]
              schedule := [.host] }

/-! ## Single steps: results from 95_test_vectors.md and the rules' examples -/

/-- CK-5, CK-7, CK-18. -/
theorem test_ck_vectors :
    [ck [0x4B], ck [0x31, 0x32, 0x33, 0x34, 0x35, 0x36, 0x37, 0x38, 0x39], ck [0x4B, 0x00, 0xC0, 0xFF, 0x00, 0x00]] =
      [0xCA9E, 0x5E86, 0x6D14] := by decide +kernel
/-- 40_checksum.md R124, its example. -/
theorem test_ck_init : (nextOf (exec .ckInit { base with ckAcc := 0xBEEF })).map (readReg .cksum) = some 0x00001021 := by decide +kernel
/-- 40_checksum.md R125, its example, and CKC-5. -/
theorem test_ck_feed : (nextOf (step (cmdDue 0x024BFFFF))).map (readReg .cksum) = some 0x0000CA9E := by decide +kernel
/-- TX-1. -/
theorem test_tx_frame_tx1 : (nextOf (exec (.txFrame 0x22 0) base)).map (·.txs) = some tx1 := by decide +kernel
/-- TX-6: a sentinel in the payload is not stuffed. -/
theorem test_tx_frame_tx6 :
    (nextOf (exec (.txFrame 0x22 1) { base with mem := memWrite base.mem 0x100 0x11 })).map (·.txs) =
      some [0x4B, 0x00, 0xC0, 0xFF, 0x00, 0x02, 0x4D, 0x56, 0x22, 0x11, 0x55, 0xA4] := by decide +kernel
/-- TX-9 and CB-14. -/
theorem test_tx_frame_too_large : (nextOf (step (cmdDue 0x1022FF00))).map (fun t => (t.txs, readReg .status t)) =
    some ([], 0x00000188) := by decide +kernel
/-- CB-11. -/
theorem test_illegal_command : (nextOf (step (cmdDue 0x03000000))).map (readReg .status) = some 0x00000288 := by decide +kernel
/-- CB-12. -/
theorem test_nop : (nextOf (step (cmdDue 0x00FFFFFF))).map (readReg .status) = some 0x00000008 := by decide +kernel
/-- CB-19. -/
theorem test_st_clr :
    let s : State := { cmdDue 0x31000000 with status :=
      { rxfValid := true, herr := true, berr := false, lerr := false, cmderr := true, code := .illegalCommand } }
    (readReg .status s, (nextOf (step s)).map (readReg .status)) = (0x00000299, some 0x00000009) := by decide +kernel
/-- CB-20. -/
theorem test_err_clr : (nextOf (step { cmdDue 0x30000000 with errcnt := 4 })).map (readReg .errcnt) = some 0 := by decide +kernel
/-- 60_exceptions.md R231: `RX_POP` lowers the frame source (CB-22). -/
theorem test_rx_pop :
    let s : State := { held with ctrl := { rxEn := true, seqInc := false, rxie := true, errie := false } }
    (readReg .status s, (nextOf (step s)).map (readReg .status)) = (0x00000801, some 0x00000000) := by decide +kernel
/-- 42_synchronizer.md R181, its example. -/
theorem test_rx_flush : (nextOf (exec .rxFlush (inBody hdr2 [1, 2, 3] 2 0))).map (·.sync) =
    some { state := .hunt, hb := [], bb := [], blen := 2 } := by decide +kernel
/-- RX-1: the last step of a delivery. -/
theorem test_delivery : (nextOf (step (inBody (tx1.take 8) [0x22, 0x37] 1 0x11))).map
    (fun t => (readReg .rxhdr t, readReg .rxinfo t, readReg .status t)) =
    some (0xFFC0004B, 0x00220100, 0x00000001) := by decide +kernel
/-- RX-9: the payload lands in `RXBUF[0]`. -/
theorem test_delivery_payload : (nextOf (step (inBody hdr2 [0x22, 0xAB, 0x53] 2 0x35))).map
    (fun t => memRead t.mem 0x200) = some (some 0xAB) := by decide +kernel
/-- RX-5: the first header mismatch, and CB-21: the counter wraps. -/
theorem test_header_mismatch :
    (nextOf (step { inHeader with rxs := [0x36], errcnt := 0xFFFFFFFF })).map (fun t => (t.errcnt, readReg .status t)) =
      some (0, 0x00000010) := by decide +kernel
/-- RX-11: the checksum is tested before the length. -/
theorem test_empty_body_bad_checksum : (nextOf (step (inBody hdr2 [0x00] 0 0x00))).map (readReg .status) =
    some 0x00000020 := by decide +kernel
/-- RX-4: an empty body with a matching checksum. -/
theorem test_empty_body : (nextOf (step (inBody hdr2 [0x10] 0 0x21))).map (readReg .status) = some 0x00000040 := by decide +kernel
/-- CB-17. -/
theorem test_txbuf_lanes : (nextOf (step (hostDue (.write 0x100 4 0x44332211)))).map (fun t => memRun t.mem 0x100 4) =
    some [0x11, 0x22, 0x33, 0x44] := by decide +kernel
/-- CB-16. -/
theorem test_addr_write : (nextOf (step (hostDue (.write 0x014 4 0xFFFFFFFF)))).map (readReg .addr) = some 0x00FFFFFF := by decide +kernel
/-- CB-15. -/
theorem test_ctrl_write : (nextOf (step (hostDue (.write 0x000 4 0xFFFFFFFF)))).map (readReg .ctrl) = some 0x0000000F := by decide +kernel
/-- CB-3 to CB-7. -/
theorem test_bus_errors :
    [step (hostDue (.read 0x004 1)), step (hostDue (.write 0x020 4 1)), step (hostDue (.read 0x0FC 4)),
      step (hostDue (.read 0x300 4)), step (hostDue (.write 0x102 4 5)), step (hostDue (.read 0x100 2))] =
    [.fault (.busError 0x004), .fault (.busError 0x020), .fault (.busError 0x0FC), .fault (.busError 0x300),
      .fault (.busError 0x102), .fault (.busError 0x100)] := rfl
/-- The host's check: the placed command is the next step, from reset. -/
theorem test_with_fetch_word :
    step (State.reset.withFetchWord 32 0x01000000) = .next { State.reset with resp := .done } := rfl

/-! ## Witnesses: for each statement with premises, a concrete state and operands that meet them -/

theorem witness_command_words :
    [0x00FFFFFF, 0x01000000, 0x024B0000, 0x1022FE00, 0x20000000, 0x21000000, 0x30000000, 0x31000000].map opField = definedOpcodes := by
  decide +kernel
theorem witness_CommandDue (w : Word) : CommandDue (cmdDue w) w [] [] := ⟨rfl, rfl⟩
theorem witness_IllegalCommandIsRecordedAndNothingElse :
    CommandDue (cmdDue 0x03000000) 0x03000000 [] [] ∧ opField 0x03000000 ∉ definedOpcodes ∧
    CommandDue (cmdDue 0xFF000000) 0xFF000000 [] [] ∧ opField 0xFF000000 ∉ definedOpcodes :=
  ⟨⟨rfl, rfl⟩, by decide +kernel, ⟨rfl, rfl⟩, by decide +kernel⟩
theorem witness_CmdWriteRunsTheDecodedCommand :
    CommandDue (cmdDue 0x10220500) 0x10220500 [] [] ∧ decode 0x10220500 = .ok (.txFrame 0x22 0x05) ∧
    HostDue (hostDue (.read 0x008 4)) (.read 0x008 4) [] [] := ⟨⟨rfl, rfl⟩, by decide +kernel, rfl, rfl⟩
theorem witness_ChecksumIsAffine : ([0x12, 0x34] : List Byte).length = ([0x56, 0x78] : List Byte).length := rfl
theorem witness_SingleBitFlipFailsTheCheck : 1 < ([] : List Byte).length + 2 ∧ 7 < 8 := by decide +kernel
theorem witness_CkInitLoadsTheInitialValue : CommandDue (cmdDue 0x01FFFFFF) 0x01FFFFFF [] [] ∧ opField 0x01FFFFFF = 0x01 :=
  ⟨⟨rfl, rfl⟩, by decide +kernel⟩
theorem witness_CkFeedAdvancesTheAccumulator : CommandDue (cmdDue 0x02FF0000) 0x02FF0000 [] [] ∧ opField 0x02FF0000 = 0x02 :=
  ⟨⟨rfl, rfl⟩, by decide +kernel⟩
theorem witness_TxFrameAppendsTheWholeFrame :
    CommandDue (cmdDue 0x1022FE00) 0x1022FE00 [] [] ∧ opField 0x1022FE00 = 0x10 := ⟨⟨rfl, rfl⟩, by decide +kernel⟩
theorem witness_PayloadOf255IsRejected :
    CommandDue (cmdDue 0x1022FF00) 0x1022FF00 [] [] ∧ opField 0x1022FF00 = 0x10 ∧
    (0x1022FF00 : Word).extractLsb' 8 8 = 255#8 := ⟨⟨rfl, rfl⟩, by decide +kernel, by decide +kernel⟩
theorem witness_EverySentFrameKeepsTheWireFormat : (254 : Byte).toNat ≤ 254 ∧ ∃ u, exec (.txFrame 0x22 254) base = .next u :=
  ⟨by decide +kernel, _, rfl⟩
theorem witness_SequenceNumbersFollowThePolicy :
    ∀ c ∈ ([(0x22, 0), (0x27, 254)] : List (Byte × Byte)), c.2.toNat ≤ 254 := by simp
theorem witness_TxFrameReadsOnlyItsPayload :
    let s' : State := { base with mem := memWrite base.mem 0x101 0, ckAcc := 0 }
    s'.ctrl = base.ctrl ∧ s'.addr = base.addr ∧ s'.txs = base.txs ∧
    (∀ i, i < (1 : Byte).toNat → memByte s'.mem (0x100 + i) = memByte base.mem (0x100 + i)) ∧
    (∃ u, exec (.txFrame 0x22 1) base = .next u) ∧ ∃ u, exec (.txFrame 0x22 1) s' = .next u := by
  refine ⟨rfl, rfl, rfl, ?_, ⟨_, rfl⟩, ⟨_, rfl⟩⟩
  intro i hi
  obtain rfl : i = 0 := by simpa using hi
  rfl
theorem witness_TransmitStreamGrowsByWholeFrames : ∃ u, step (cmdDue 0x10220000) = .next u := ⟨_, rfl⟩
theorem witness_RxPopReleasesTheFrame : CommandDue (cmdDue 0x20000000) 0x20000000 [] [] ∧ opField 0x20000000 = 0x20 :=
  ⟨⟨rfl, rfl⟩, by decide +kernel⟩
theorem witness_RxFlushReturnsToHunt : CommandDue (cmdDue 0x21000000) 0x21000000 [] [] ∧ opField 0x21000000 = 0x21 :=
  ⟨⟨rfl, rfl⟩, by decide +kernel⟩
theorem witness_NopChangesNothing : CommandDue (cmdDue 0x00FFFFFF) 0x00FFFFFF [] [] ∧ opField 0x00FFFFFF = 0x00 :=
  ⟨⟨rfl, rfl⟩, by decide +kernel⟩
theorem witness_ErrClrClearsTheCounter : CommandDue (cmdDue 0x30000000) 0x30000000 [] [] ∧ opField 0x30000000 = 0x30 :=
  ⟨⟨rfl, rfl⟩, by decide +kernel⟩
theorem witness_StClrClearsTheStickyFields : CommandDue (cmdDue 0x31000000) 0x31000000 [] [] ∧ opField 0x31000000 = 0x31 :=
  ⟨⟨rfl, rfl⟩, by decide +kernel⟩
theorem witness_CommandsChangeOnlyTheirOwnState : ∃ u, exec (.ckFeed 0x4B) base = .next u := ⟨_, rfl⟩
/-- Both clauses, at the edges of the ranges of 20_memory.md R62. -/
theorem witness_BusErrorExactlyOnIllegalAccess :
    HostDue (hostDue (.read 0x01C 4)) (.read 0x01C 4) [] [] ∧ LegalByR62 0x01C 4 ∧ LegalByR62 0x100 1 ∧ LegalByR62 0x2FC 4 ∧
    LegalByR62 0x2FF 1 ∧ ¬ LegalByR62 0x01F 4 ∧ ¬ LegalByR62 0x020 4 ∧ ¬ LegalByR62 0x0FF 1 ∧ ¬ LegalByR62 0x2FD 4 ∧
    ¬ LegalByR62 0x300 1 ∧ ¬ LegalByR62 0x100 2 ∧ ¬ LegalByR62 0x000 1 ∧
    HostDue (hostDue (.write 0x020 4 1)) (.write 0x020 4 1) [] [] := by
  refine ⟨⟨rfl, rfl⟩, ?_, ?_, ?_, ?_, ?_, ?_, ?_, ?_, ?_, ?_, ?_, rfl, rfl⟩ <;> unfold LegalByR62 <;> decide
theorem witness_OnlyBusErrorsStopTheMachine : step (hostDue (.read 0x020 4)) = .fault (.busError 0x020) := rfl
theorem witness_HostReadsHaveNoSideEffect :
    HostDue (hostDue (.read 0x004 4)) (.read 0x004 4) [] [] ∧ LegalByR62 0x004 4 := ⟨⟨rfl, rfl⟩, by unfold LegalByR62; decide⟩
theorem witness_WritesToReadOnlyLocationsAreIgnored :
    HostDue (hostDue (.write 0x01C 4 1)) (.write 0x01C 4 1) [] [] ∧ (0x01C : HostAddr) ∈ [0x004, 0x00C, 0x010, 0x018, 0x01C] ∧
    HostDue (hostDue (.write 0x2FF 1 1)) (.write 0x2FF 1 1) [] [] ∧ 0x200 ≤ (0x2FF : HostAddr).toNat ∧ (0x2FF : HostAddr).toNat < 0x300 ∧
    HostDue (hostDue (.read 0x008 4)) (.read 0x008 4) [] [] :=
  ⟨⟨rfl, rfl⟩, by decide +kernel, ⟨rfl, rfl⟩, by decide +kernel, by decide +kernel, rfl, rfl⟩
theorem witness_CtrlWriteSetsItsFields : HostDue (hostDue (.write 0x000 4 0xF)) (.write 0x000 4 0xF) [] [] := ⟨rfl, rfl⟩
theorem witness_AddrWriteSetsItsFields : HostDue (hostDue (.write 0x014 4 0xF)) (.write 0x014 4 0xF) [] [] := ⟨rfl, rfl⟩
theorem witness_TxbufWriteSetsTheAddressedBytes :
    (hostDue (.write 0x1FC 4 1)).mem.wf = true ∧ 0x100 ≤ (0x1FC : HostAddr).toNat ∧ (0x1FC : HostAddr).toNat < 0x200 ∧
    (0x1FC : HostAddr).toNat % 4 = 0 ∧ HostDue (hostDue (.write 0x1FC 4 1)) (.write 0x1FC 4 1) [] [] ∧
    HostDue (hostDue (.write 0x1FF 1 1)) (.write 0x1FF 1 1) [] [] :=
  ⟨by decide +kernel, by decide +kernel, by decide +kernel, by decide +kernel, ⟨rfl, rfl⟩, rfl, rfl⟩
theorem witness_BufferReadGivesItsBytes :
    0x100 ≤ (0x2FC : HostAddr).toNat ∧ (0x2FC : HostAddr).toNat < 0x300 ∧ (0x2FC : HostAddr).toNat % 4 = 0 ∧
    HostDue (hostDue (.read 0x2FC 4)) (.read 0x2FC 4) [] [] ∧ HostDue (hostDue (.read 0x2FF 1)) (.read 0x2FF 1) [] [] :=
  ⟨by decide +kernel, by decide +kernel, by decide +kernel, ⟨rfl, rfl⟩, rfl, rfl⟩
/-- The three clauses, at the last word of `TXBUF` and of `RXBUF`; the four 1-byte writes come highest address first. -/
theorem witness_MixedWidthAccessesSeeOneArray :
    let w := hostDue (.write 0x1FC 4 0x44332211)
    let order : List Nat := [3, 2, 1, 0]
    let p : State := { base with
      schedule := List.replicate 4 .host
      host := [.access (.write 0x1FF 1 3), .access (.write 0x1FE 1 2), .access (.write 0x1FD 1 1), .access (.write 0x1FC 1 0)] }
    (w.mem.wf = true ∧ 0x100 ≤ (0x1FC : HostAddr).toNat ∧ (0x1FC : HostAddr).toNat < 0x200 ∧ (0x1FC : HostAddr).toNat % 4 = 0 ∧
      HostDue w (.write 0x1FC 4 0x44332211) [] [] ∧ ∃ u, step w = .next u ∧
        HostDue { u with host := [.access (.read 0x1FF 1)], schedule := [.host] } (.read (0x1FC + BitVec.ofNat 12 3) 1) [] []) ∧
    (p.mem.wf = true ∧ order.Perm [0, 1, 2, 3] ∧ p.schedule = List.replicate 4 .host ++ [] ∧
      p.host = order.map (fun j => HostOp.access (.write (0x1FC + BitVec.ofNat 12 j) 1 (BitVec.ofNat 32 j))) ++ [] ∧
      ∃ u, runSteps 4 p = .next u ∧
        HostDue { u with host := [.access (.read 0x1FC 4)], schedule := [.host] } (.read 0x1FC 4) [] []) ∧
    0x100 ≤ (0x2FC : HostAddr).toNat ∧ (0x2FC : HostAddr).toNat < 0x300 ∧ (0x2FC : HostAddr).toNat % 4 = 0 ∧
    HostDue (hostDue (.read 0x2FC 4)) (.read 0x2FC 4) [] [] :=
  ⟨⟨by decide +kernel, by decide +kernel, by decide +kernel, by decide +kernel, ⟨rfl, rfl⟩, _, rfl, rfl, rfl⟩,
    ⟨by decide +kernel, by decide +kernel, rfl, rfl, _, rfl, rfl, rfl⟩, by decide +kernel, by decide +kernel, by decide +kernel, rfl, rfl⟩
theorem witness_RegistersReadTheirFields (r : Reg) : HostDue (hostDue (.read (regOffset r) 4)) (.read (regOffset r) 4) [] [] :=
  ⟨rfl, rfl⟩
theorem witness_InterruptLevelFollowsItsSources :
    (∃ u, exec .rxPop held = .next u) ∧ ∃ u, exec .stClr held = .next u := ⟨⟨_, rfl⟩, _, rfl⟩
/-- Enabled in HUNT and mid-frame; not enabled with an empty stream, stopped, and with a frame held. -/
theorem witness_SynchronizerStepsExactlyWhenEnabled :
    SyncDue (receiving 1 tx1) [] ∧ (receiving 1 tx1).ctrl.rxEn = true ∧ (receiving 1 tx1).status.rxfValid = false ∧
    SyncDue inHeader [] ∧ inHeader.rxs = [0x35] ∧ inHeader.sync.state ≠ .hunt ∧
    (receiving 1 []).rxs = [] ∧ base.ctrl.rxEn = false ∧ held.status.rxfValid = true ∧ held.sync.state = .hunt := by
  refine ⟨rfl, rfl, rfl, rfl, rfl, by decide +kernel, rfl, rfl, rfl, rfl⟩
theorem witness_HuntDropsOnlyTheSentinel : base.sync.state = .hunt ∧ (0x4B : Byte) ≠ 0x11 := ⟨rfl, by decide +kernel⟩
/-- The three clauses: below 8 bytes, an eighth byte that checks, an eighth byte that does not. -/
theorem witness_HeaderIsCollectedAndChecked :
    inHeader.sync.state = .header ∧
    ({ inHeader with sync := { inHeader.sync with hb := tx1.take 6 } } : State).sync.hb.length + 1 < 8 ∧
    inHeader.sync.hb.length + 1 = 8 ∧ headerValid (inHeader.sync.hb ++ [0x35]) = true ∧
    headerValid (inHeader.sync.hb ++ [0x36]) = false := by decide +kernel
/-- The three clauses: a byte before the last, a body mismatch, an empty body. -/
theorem witness_BodyIsCollectedAndChecked :
    (inBody hdr2 [] 0 0).sync.state = .body ∧
    (inBody hdr2 [] 0 0).sync.bb.length + 1 < 0 + 2 ∧
    ck (([0x10, 0x22] : List Byte).take 0) ≠ be16 0x10 0x22 ∧ ck (([0x10, 0x21] : List Byte).take 0) = be16 0x10 0x21 ∧
    (inBody hdr2 [0x10] 0 0).sync.bb.length + 1 = 0 + 2 := by decide +kernel
theorem witness_DeliveryPublishesTheWholeFrame :
    let s := inBody hdr2 [0x22, 0xAB, 0x53] 2 0x35
    let bb := s.sync.bb ++ [0x35]
    s.mem.wf = true ∧ s.sync.state = .body ∧ s.sync.bb.length + 1 = s.sync.blen.toNat + 2 ∧
    ck (bb.take 2) = be16 (bb.getD 2 0) (bb.getD 3 0) ∧ s.sync.blen.toNat ≠ 0 := by decide +kernel
theorem witness_ReceiverStopsOnlyAtAFrameBoundary :
    SyncDue inHeader [] ∧ inHeader.sync.state ≠ .hunt ∧
    SyncDue { base with schedule := [.sync] } [] ∧ base.sync.state = .hunt ∧ base.ctrl.rxEn = false :=
  ⟨rfl, by decide +kernel, rfl, rfl, rfl⟩
theorem held_inv : held.Inv := ⟨by decide +kernel, ⟨rfl, rfl⟩, by decide +kernel, by decide +kernel, by decide +kernel, by decide +kernel⟩
theorem inBody_inv : (inBody hdr2 [0x22, 0xAB, 0x53] 2 0x35).Inv :=
  ⟨by decide +kernel, ⟨by decide +kernel, by decide +kernel, by decide +kernel, by decide +kernel, by decide +kernel⟩, by decide +kernel, by decide +kernel, by decide +kernel, by decide +kernel⟩
theorem witness_SynchronizerChangesOnlyItsOwnState :
    (inBody hdr2 [0x22, 0xAB, 0x53] 2 0x35).Inv ∧ SyncDue (inBody hdr2 [0x22, 0xAB, 0x53] 2 0x35) [] := ⟨inBody_inv, rfl⟩
theorem witness_LeadingSentinelsAreSkipped :
    let s := receiving 3 ([0x11, 0x11, 0x11] ++ tx1)
    ReadyToHunt s ∧ SyncTurnsDue s 3 [] ∧ s.rxs = List.replicate 3 0x11 ++ tx1 := ⟨⟨rfl, rfl, rfl⟩, rfl, rfl⟩
/-- The four clauses: a header that fails, a body that fails, an empty body, a valid frame. -/
theorem witness_ByteStepsAgreeWithBlockReads :
    let bad : List Byte := [0x4B, 0x00, 0xC1, 0xFF, 0x00, 0x01, 0x7D, 0x35]
    let empty : List Byte := [0x4B, 0x00, 0xC0, 0xFF, 0x00, 0x00, 0x6D, 0x14]
    (ReadyToHunt (receiving 8 bad) ∧ SyncTurnsDue (receiving 8 bad) 8 [] ∧ headerValid bad = false) ∧
    (ReadyToHunt (receiving 11 tx1) ∧ SyncTurnsDue (receiving 11 tx1) 11 [] ∧ headerValid (tx1.take 8) = true ∧
      tx1 = tx1.take 8 ++ [0x22, 0x37, 0x11] ++ [] ∧ ck [0x22] = be16 0x37 0x11 ∧ ck [0xA2] ≠ be16 0x37 0x11) ∧
    headerValid empty = true ∧ ck [] = be16 0x10 0x21 :=
  ⟨⟨⟨rfl, rfl, rfl⟩, rfl, by decide +kernel⟩, ⟨⟨rfl, rfl, rfl⟩, rfl, by decide +kernel, by decide +kernel, by decide +kernel, by decide +kernel⟩, by decide +kernel, by decide +kernel⟩
theorem witness_SentFrameIsDeliveredUnchanged :
    (∃ u, exec (.txFrame 0x22 0) base = .next u ∧ u.txs = base.txs ++ tx1) ∧ ReadyToHunt (receiving 11 tx1) ∧
    Memory.wf (receiving 11 tx1).mem = true ∧ (receiving 11 tx1).rxs = tx1 ++ [] ∧ SyncTurnsDue (receiving 11 tx1) 11 [] :=
  ⟨⟨_, rfl, by decide +kernel⟩, ⟨rfl, rfl, rfl⟩, by decide +kernel, by decide +kernel, rfl⟩
theorem witness_FlippedFrameIsNeverDelivered :
    (∃ u, exec (.txFrame 0x22 0) base = .next u ∧ u.txs = base.txs ++ tx1) ∧
    (let s := receiving 8 (flipBit tx1 0 7); ReadyToHunt s ∧ s.rxs = flipBit tx1 0 7 ++ [] ∧ SyncTurnsDue s 8 []) ∧
    (let s := receiving 11 (flipBit tx1 10 0); ReadyToHunt s ∧ s.rxs = flipBit tx1 10 0 ++ [] ∧ SyncTurnsDue s 11 []) :=
  ⟨⟨_, rfl, by decide +kernel⟩, ⟨⟨rfl, rfl, rfl⟩, by decide +kernel, rfl⟩, ⟨rfl, rfl, rfl⟩, by decide +kernel, rfl⟩
theorem witness_HeldFrameIsStableUntilPopped : held.Inv ∧ held.status.rxfValid = true ∧ ∃ u, step held = .next u :=
  ⟨held_inv, rfl, _, rfl⟩
theorem witness_CorruptedHeaderCostsTwoGoodFrames :
    let s := receiving 44 ([0x4B, 0x00, 0xC1, 0xFF, 0x00, 0x01, 0x7D, 0x35, 0x22, 0x37, 0x11] ++ tx1 ++ tx1 ++ tx1)
    ReadyToHunt s ∧ s.status.herr = false ∧ s.schedule = List.replicate 44 .sync := ⟨⟨rfl, rfl, rfl⟩, rfl, rfl⟩
theorem witness_EveryStepKeepsTheInvariant : held.Inv ∧ ∃ u, step held = .next u := ⟨held_inv, _, rfl⟩
theorem witness_ResetInputKeepsTheLineStreams : ({ held with schedule := [.reset] } : State).schedule = .reset :: [] := rfl
/-- The clauses that change the counter: a header mismatch in the synchronizer's turn, and `ERR_CLR` in the host's. -/
theorem witness_ErrorCounterChangesOnlyByItsEvents :
    (SyncMovesNext { inHeader with rxs := [0x36] } ∧ ∃ u, step { inHeader with rxs := [0x36] } = .next u ∧ u.errcnt = 1) ∧
    HostMovesNext { cmdDue 0x30000000 with errcnt := 4 } ∧
    ∃ u, step { cmdDue 0x30000000 with errcnt := 4 } = .next u ∧ u.errcnt = 0 :=
  ⟨⟨.inl rfl, _, rfl, by decide +kernel⟩, .inl rfl, _, rfl, by decide +kernel⟩
/-- Both clauses: a host write that changes a byte of `TXBUF`, and a delivery that changes a byte of `RXBUF`. -/
theorem witness_BuffersChangeOnlyByTheirWriters :
    let s := inBody hdr2 [0x22, 0xAB, 0x53] 2 0x35
    let w : State := { s with schedule := [.host], host := [.access (.write 0x100 1 0x55)] }
    (s.Inv ∧ s.schedule.head? ≠ some .reset ∧ ∃ u, step s = .next u ∧ memRead u.mem 0x200 ≠ memRead s.mem 0x200) ∧
    w.Inv ∧ w.schedule.head? ≠ some .reset ∧ ∃ u, step w = .next u ∧ memRead u.mem 0x100 ≠ memRead w.mem 0x100 :=
  ⟨⟨inBody_inv, by decide +kernel, _, rfl, by decide +kernel⟩,
    ⟨inBody_inv.1, inBody_inv.2, inBody_inv.3, inBody_inv.4, inBody_inv.5, inBody_inv.6⟩, by decide +kernel, _, rfl, by decide +kernel⟩
theorem witness_LineActionsTouchOnlyTheirStream :
    ({ base with schedule := [.lineIn 0x11] } : State).schedule = .lineIn 0x11 :: [] ∧
    ({ base with schedule := [.lineOut], txs := tx1 } : State).schedule = .lineOut :: [] := ⟨rfl, rfl⟩
theorem witness_WaitRxAndRecvFollowTheValueRead :
    let s : State := { held with host := [.waitRx], schedule := [.host] }
    let r : State := { held with host := [.recvInfo], schedule := [.host] }
    s.schedule = .host :: [] ∧ s.host = .waitRx :: [] ∧ r.schedule = .host :: [] ∧ r.host = .recvInfo :: [] := ⟨rfl, rfl, rfl, rfl⟩

end Sys2Proof.Tests
end

section
/-! PROOFS. The state: the frame of the commands, the invariant, who writes the error counter and the buffers, and
what the host reads and does at the register offsets (10_state.md). -/

namespace Sys2Proof.Machine

/-! ### The frame of the commands -/

/-- `ADDR.SEQ` is the one field that the end of a frame can move (41_framer.md R140, R141). -/
theorem advanceSeq_eq (s : State) : advanceSeq s =
    s.withAddr { s.addr with seq := if s.ctrl.seqInc then s.addr.seq + 1 else s.addr.seq } := by
  unfold advanceSeq
  split <;> rfl

/-- A payload length above the maximum can only be 255 (41_framer.md R142). -/
theorem eq_255_of_maxPayload_lt {n : Byte} (h : Config.maxPayload < n.toNat) : n = 255 := by
  simp only [Config.maxPayload] at h
  bv_omega

/-- Settles O24: each of the shapes a command can leave is one named update. -/
theorem commandsChangeOnlyTheirOwnState : Obligations.CommandsChangeOnlyTheirOwnState := by
  intro i s u h
  obtain ⟨rfl, rfl⟩ | ⟨rfl, rfl⟩ | ⟨b, rfl, rfl⟩ | ⟨ty, n, rfl, hn, rfl⟩ | ⟨ty, n, rfl, -, rfl⟩ | ⟨rfl, rfl⟩ |
    ⟨rfl, rfl⟩ | ⟨rfl, rfl⟩ | ⟨rfl, rfl⟩ := exec_next_cases h
  · simp
  · simp
  · simp
  · obtain rfl := eq_255_of_maxPayload_lt hn
    simp [raiseCmdError]
  · simp [advanceSeq_eq, lineSend]
  · simp
  · simp [toHunt]
  · simp
  · simp

/-- No command stores. -/
theorem exec_memRead {i : Instr} {s u : State} (h : exec i s = .next u) (a : Nat) : memRead u.mem a = memRead s.mem a :=
  (commandsChangeOnlyTheirOwnState i s u h).1 a

/-- Only `ERR_CLR` touches the error counter. -/
theorem exec_errcnt {i : Instr} {s u : State} (h : exec i s = .next u) (hi : i ≠ .errClr) : u.errcnt = s.errcnt := by
  obtain ⟨-, -, -, -, -, -, -, -, -, -, herr, -⟩ := commandsChangeOnlyTheirOwnState i s u h
  exact herr hi

/-! ### The synchronizer's own invariant (10_state.md R40) -/

section
variable {y : Sync} {b : Byte}

theorem Sync.ok_hunt (hst : y.state = .hunt) : y.Ok ↔ y.hb = [] ∧ y.bb = [] := by simp [Sync.Ok, hst]

theorem Sync.ok_header (hst : y.state = .header) : y.Ok ↔
    1 ≤ y.hb.length ∧ y.hb.length ≤ 7 ∧ y.bb = [] ∧ y.hb.getD 0 0 ≠ Config.syncByte := by simp only [Sync.Ok, hst]

theorem Sync.ok_body (hst : y.state = .body) : y.Ok ↔ y.hb.length = 8 ∧ headerValid y.hb = true ∧
    y.hb.getD 5 0 = y.blen ∧ y.hb.getD 0 0 ≠ Config.syncByte ∧ y.bb.length ≤ y.blen.toNat + 1 := by
  simp only [Sync.Ok, hst]

/-- The first byte of a frame starts a header (42_synchronizer.md R164). -/
theorem Sync.Ok.startHeader (hy : y.Ok) (hst : y.state = .hunt) (hb : b ≠ Config.syncByte) :
    ({ y with state := .header, hb := [b] } : Sync).Ok := by
  obtain ⟨-, hbb⟩ := (Sync.ok_hunt hst).mp hy
  exact (Sync.ok_header rfl).mpr ⟨by simp, by simp, hbb, hb⟩

/-- A header byte that does not complete the header is collected (42_synchronizer.md R165). -/
theorem Sync.Ok.headerByte (hy : y.Ok) (hst : y.state = .header) (hl : (y.hb ++ [b]).length ≠ 8) :
    ({ y with hb := y.hb ++ [b] } : Sync).Ok := by
  obtain ⟨h1, h7, hbb, hstart⟩ := (Sync.ok_header hst).mp hy
  simp only [List.length_append, List.length_singleton] at hl
  refine (Sync.ok_header (by exact hst)).mpr ⟨?_, ?_, hbb, ?_⟩
  · simp
  · simp only [List.length_append, List.length_singleton]; omega
  · rwa [List.getD_append _ _ _ _ h1]

/-- The eighth header byte starts the body when the header passes its check (42_synchronizer.md R166, R167). -/
theorem Sync.Ok.startBody (hy : y.Ok) (hst : y.state = .header) (hl : (y.hb ++ [b]).length = 8)
    (hv : headerValid (y.hb ++ [b]) = true) :
    ({ state := .body, hb := y.hb ++ [b], bb := [], blen := (y.hb ++ [b]).getD 5 0 } : Sync).Ok := by
  obtain ⟨h1, -, -, hstart⟩ := (Sync.ok_header hst).mp hy
  refine (Sync.ok_body rfl).mpr ⟨hl, hv, rfl, ?_, by simp⟩
  rwa [List.getD_append _ _ _ _ h1]

/-- A body byte that does not complete the body is collected (42_synchronizer.md R169). -/
theorem Sync.Ok.bodyByte (hy : y.Ok) (hst : y.state = .body) (hl : (y.bb ++ [b]).length ≠ y.blen.toNat + 2) :
    ({ y with bb := y.bb ++ [b] } : Sync).Ok := by
  obtain ⟨h8, hv, h5, hstart, hlen⟩ := (Sync.ok_body hst).mp hy
  simp only [List.length_append, List.length_singleton] at hl
  refine (Sync.ok_body (by exact hst)).mpr ⟨h8, hv, h5, hstart, ?_⟩
  simp only [List.length_append, List.length_singleton]; omega

end

/-! ### The invariant and the named updates -/

section
variable {s t : State}

/-- The invariant reads five fields. -/
theorem State.Inv.of_unchanged (h : s.Inv) (hm : t.mem = s.mem := by rfl) (hs : t.status = s.status := by rfl)
    (hr : t.rxhdr = s.rxhdr := by rfl) (hi : t.rxinfo = s.rxinfo := by rfl) (hy : t.sync = s.sync := by rfl) : t.Inv where
  memory := by rw [hm]; exact h.memory
  sync := by rw [hy]; exact h.sync
  heldInHunt := by rw [hs, hy]; exact h.heldInHunt
  heldLength := by rw [hs, hi]; exact h.heldLength
  heldStart := by rw [hs, hr]; exact h.heldStart
  errorCode := by rw [hs]; exact h.errorCode

theorem State.Inv.withMem (h : s.Inv) {m : Memory} (hm : m.wf = true) : (s.withMem m).Inv :=
  { h with memory := hm }

/-- A status update keeps the invariant when it holds no new frame and `CMDERR` agrees with its code. -/
theorem State.Inv.withStatus (h : s.Inv) {v : Status} (hv : v.rxfValid = true → s.status.rxfValid = true)
    (hc : v.cmderr = true ↔ v.code ≠ .none) : (s.withStatus v).Inv where
  memory := h.memory
  sync := h.sync
  heldInHunt hf := h.heldInHunt (hv hf)
  heldLength hf := h.heldLength (hv hf)
  heldStart hf := h.heldStart (hv hf)
  errorCode := hc

/-- A synchronizer update keeps the invariant when it leaves HUNT only with no frame held. -/
theorem State.Inv.withSync (h : s.Inv) {y : Sync} (hy : y.Ok) (hf : s.status.rxfValid = true → y.state = .hunt) :
    (s.withSync y).Inv :=
  { h with sync := hy, heldInHunt := hf }

theorem State.Inv.raiseCmdError (h : s.Inv) {c : CmdErrCode} (hc : c ≠ .none) : (raiseCmdError c s).Inv :=
  h.withStatus id (by simpa using hc)

theorem State.Inv.toHunt (h : s.Inv) : (toHunt s).Inv :=
  h.withSync ⟨rfl, rfl⟩ fun _ => rfl

theorem State.Inv.recordRxError (h : s.Inv) (k : RxErrKind) : (recordRxError k s).Inv :=
  (h.of_unchanged : (s.withErrcnt (s.errcnt + 1)).Inv).withStatus (by simp) (by simpa using h.errorCode)

/-- In BODY the delivery of a frame with a body, and the return to HUNT, keep the invariant (42_synchronizer.md R172). -/
theorem State.Inv.toHunt_deliver (h : s.Inv) (hb : s.sync.state = .body) (hn : s.sync.blen ≠ 0) (bb : List Byte) :
    (Machine.toHunt (deliver bb s)).Inv where
  memory := memWriteRun_wf h.memory _ _
  sync := ⟨rfl, rfl⟩
  heldInHunt _ := rfl
  heldLength _ := hn
  heldStart _ := by
    obtain ⟨-, -, -, hstart, -⟩ := (Sync.ok_body hb).mp h.sync
    exact hstart
  errorCode := h.errorCode

/-- The synchronizer has a step only while no frame is held (10_state.md R40, 42_synchronizer.md R161). -/
theorem State.Inv.not_held_of_rxEnabled (h : s.Inv) (he : rxEnabled s = true) : s.status.rxfValid = false := by
  by_contra hf
  rw [Bool.not_eq_false] at hf
  simp [rxEnabled, rxReady, h.heldInHunt hf, hf] at he

end

/-! ### What each agent's turn can do -/

/-- A legal access to `TXBUF` lies in `TXBUF` (20_memory.md R60, R62). -/
theorem txbuf_legalAccess {addr : HostAddr} {n : Nat} (hl : LegalByR62 addr n) (hr : regionOf addr = .txbuf) :
    0x100 ≤ addr.toNat ∧ addr.toNat + n ≤ 0x200 ∧ (n = 1 ∨ n = 4) := by
  have h2 : addr.toNat < 0x200 := by
    by_contra h2
    obtain ⟨h1, -⟩ | ⟨-, h3, -⟩ := hl
    · omega
    · rw [regionOf_rxbuf (by omega) h3] at hr
      contradiction
  obtain ⟨h1, -⟩ | ⟨h1, -, hn⟩ := hl
  · rw [regionOf_registers.mpr h1] at hr
    contradiction
  · omega

/-- A legal buffer write leaves the bytes outside its range alone (20_memory.md R64). -/
theorem memRead_writeBuf_outside {m : Memory} {a n a' : Nat} {v : Word} (hn : n = 1 ∨ n = 4) (h : a' < a ∨ a + n ≤ a') :
    memRead (writeBuf m a n v) a' = memRead m a' := by
  apply memRead_memWriteRun_outside
  obtain rfl | rfl := hn
  · exact h
  · exact h

/-- A byte taken by the synchronizer is one of three things: a change of the synchronizer alone that keeps its own
invariant, a receive error that ends a frame, or a delivery (42_synchronizer.md R163 to R173). -/
theorem rxByte_outcome (b : Byte) (s : State) :
    (∃ y : Sync, (s.sync.Ok → y.Ok) ∧ rxByte b s = s.withSync y) ∨
    (∃ k, s.sync.state ≠ .hunt ∧ rxByte b s = toHunt (recordRxError k s)) ∨
    (s.sync.state = .body ∧ s.sync.blen ≠ 0 ∧ rxByte b s = toHunt (deliver (s.sync.bb ++ [b]) s)) := by
  obtain ⟨-, -, e⟩ | ⟨hst, hb, e⟩ | ⟨hst, hl, e⟩ | ⟨hst, hl, hv, e⟩ | ⟨hst, -, -, e⟩ | ⟨hst, hl, e⟩ | ⟨hst, -, e⟩ :=
    rxByte_cases b s
  · exact .inl ⟨s.sync, id, e⟩
  · exact .inl ⟨_, fun hy => hy.startHeader hst hb, e⟩
  · exact .inl ⟨_, fun hy => hy.headerByte hst hl, e⟩
  · exact .inl ⟨_, fun hy => hy.startBody hst hl hv, e⟩
  · exact .inr (.inl ⟨_, by simp [hst], e⟩)
  · exact .inl ⟨_, fun hy => hy.bodyByte hst hl, e⟩
  · rw [e]
    obtain ⟨-, e⟩ | ⟨-, -, e⟩ | ⟨-, hn, e⟩ := bodyDone_cases (s.sync.bb ++ [b]) s
    · exact .inr (.inl ⟨_, by simp [hst], e⟩)
    · exact .inr (.inl ⟨_, by simp [hst], e⟩)
    · exact .inr (.inr ⟨hst, by rintro h0; simp [h0] at hn, e⟩)

/-- A host turn that answers changes the host's own state alone, or is a legal write with one of five effects
(43_control.md R201, R204, R205; 10_state.md R26). -/
theorem hostTurn_outcome {s t : State} (h : hostTurn s = .next t) :
    (∃ ops r, t = answered s r ops s.schedule) ∨
    ∃ addr n v ops, s.host = .access (.write addr n v) :: ops ∧
      ((∃ c, t = (answered s .done ops s.schedule).withCtrl c) ∨
       (∃ a, t = (answered s .done ops s.schedule).withAddr a) ∨
       (0x100 ≤ addr.toNat ∧ addr.toNat + n ≤ 0x200 ∧ (n = 1 ∨ n = 4) ∧
         t = (answered s .done ops s.schedule).withMem (writeBuf s.mem addr.toNat n v)) ∨
       (addr = 0x008 ∧ n = 4 ∧ ∃ i, decode v = .ok i ∧ exec i (answered s .done ops s.schedule) = .next t) ∨
       t = raiseCmdError .illegalCommand (answered s .done ops s.schedule)) := by
  obtain ⟨-, rfl⟩ | ⟨a, ops, e, h⟩ | ⟨ops, r, -, rfl⟩ := hostTurn_next_cases h
  · exact .inl ⟨t.host, t.resp, rfl⟩
  · obtain ⟨addr, n, rfl, -, rfl⟩ | ⟨addr, n, v, rfl, hl, h⟩ := hostAccess_next_cases h
    · exact .inl ⟨_, _, rfl⟩
    · rw [legalAccess_iff] at hl
      obtain rfl | rfl | rfl | ⟨hr, rfl⟩ | ⟨hr, hc, ⟨i, hd, hx⟩ | ⟨-, -, rfl⟩⟩ := writeEffect_next_cases h
      · exact .inl ⟨_, _, rfl⟩
      · exact .inr ⟨_, _, _, _, e, .inl ⟨_, rfl⟩⟩
      · exact .inr ⟨_, _, _, _, e, .inr (.inl ⟨_, rfl⟩)⟩
      · obtain ⟨h1, h2, hn⟩ := txbuf_legalAccess hl hr
        exact .inr ⟨_, _, _, _, e, .inr (.inr (.inl ⟨h1, h2, hn, rfl⟩))⟩
      · obtain ⟨rfl, rfl⟩ := cmd_legalAccess hl hr hc
        exact .inr ⟨_, _, _, _, e, .inr (.inr (.inr (.inl ⟨rfl, rfl, i, hd, hx⟩)))⟩
      · exact .inr ⟨_, _, _, _, e, .inr (.inr (.inr (.inr rfl)))⟩
  · exact .inl ⟨_, _, rfl⟩

/-! ### Every step keeps the invariant -/

section
variable {s t : State}

/-- Every command keeps the invariant. -/
theorem exec_inv {i : Instr} (hs : s.Inv) (h : exec i s = .next t) : t.Inv := by
  obtain ⟨-, rfl⟩ | ⟨-, rfl⟩ | ⟨_, -, rfl⟩ | ⟨_, _, -, -, rfl⟩ | ⟨_, _, -, -, rfl⟩ | ⟨-, rfl⟩ | ⟨-, rfl⟩ | ⟨-, rfl⟩ |
    ⟨-, rfl⟩ := exec_next_cases h
  · exact hs
  · exact hs.of_unchanged
  · exact hs.of_unchanged
  · exact hs.raiseCmdError (by decide)
  · rw [advanceSeq_eq]; exact hs.of_unchanged
  · exact hs.withStatus (by simp) (by simpa using hs.errorCode)
  · exact hs.toHunt
  · exact hs.of_unchanged
  · exact hs.withStatus id (by simp)

theorem rxByte_inv (hs : s.Inv) (hf : s.status.rxfValid = false) (b : Byte) : (rxByte b s).Inv := by
  obtain ⟨y, hy, e⟩ | ⟨k, -, e⟩ | ⟨hst, hn, e⟩ := rxByte_outcome b s
  · rw [e]; exact hs.withSync (hy hs.sync) (by simp [hf])
  · rw [e]; exact (hs.recordRxError k).toHunt
  · rw [e]; exact hs.toHunt_deliver hst hn _

theorem syncTurn_inv (hs : s.Inv) : (syncTurn s).Inv := by
  obtain ⟨-, e⟩ | ⟨he, b, bs, -, e⟩ := syncTurn_cases s
  · rw [e]; exact hs
  · rw [e]; exact rxByte_inv (s := s.withRxs bs) hs.of_unchanged (hs.not_held_of_rxEnabled he) b

theorem hostTurn_inv (hs : s.Inv) (h : hostTurn s = .next t) : t.Inv := by
  obtain ⟨ops, r, rfl⟩ | ⟨addr, n, v, ops, -, hw⟩ := hostTurn_outcome h
  · exact hs.of_unchanged
  · have hd : (answered s .done ops s.schedule).Inv := hs.of_unchanged
    obtain ⟨c, rfl⟩ | ⟨a, rfl⟩ | ⟨-, -, -, rfl⟩ | ⟨-, -, i, -, hx⟩ | rfl := hw
    · exact hd.of_unchanged
    · exact hd.of_unchanged
    · exact hd.withMem (writeBuf_wf hs.memory _ _ _)
    · exact exec_inv hd hx
    · exact hd.raiseCmdError (by decide)

theorem assertReset_inv (s : State) : (assertReset s).Inv where
  memory := drawn_wf _
  sync := ⟨rfl, rfl⟩
  heldInHunt := nofun
  heldLength := nofun
  heldStart := nofun
  errorCode := by simp [assertReset, State.reset]

end

/-- Settles O50: the drawn memory is canonical, the synchronizer hunts, no frame is held and no error is recorded. -/
theorem invariantHoldsAtReset : Obligations.InvariantHoldsAtReset where
  memory := drawn_wf 0
  sync := ⟨rfl, rfl⟩
  heldInHunt := nofun
  heldLength := nofun
  heldStart := nofun
  errorCode := by simp [State.reset]

/-- Settles O51, turn by turn. -/
theorem everyStepKeepsTheInvariant : Obligations.EveryStepKeepsTheInvariant := by
  intro s u hs h
  obtain ⟨us, -, ⟨-, rfl⟩ | ⟨-, h⟩ | ⟨b, -, rfl⟩ | ⟨-, rfl⟩ | ⟨-, rfl⟩⟩ := step_next_cases h
  · exact syncTurn_inv hs.of_unchanged
  · exact hostTurn_inv (s := s.withSchedule us) hs.of_unchanged h
  · exact hs.of_unchanged
  · exact hs.of_unchanged
  · exact assertReset_inv _

/-! ### The error counter -/

/-- A receive error sets one sticky bit (60_exceptions.md R220). -/
theorem setRxErrBit_eq (k : RxErrKind) (t : Status) :
    setRxErrBit k t = { t with herr := true } ∨ setRxErrBit k t = { t with berr := true } ∨
      setRxErrBit k t = { t with lerr := true } := by
  cases k
  · exact .inl rfl
  · exact .inr (.inl rfl)
  · exact .inr (.inr rfl)

/-- The synchronizer's turn moves the error counter only by one receive error that ends the frame. -/
theorem syncTurn_errcnt (s : State) :
    (syncTurn s).errcnt = s.errcnt ∨
    ∃ k, s.sync.state ≠ .hunt ∧ (syncTurn s).errcnt = s.errcnt + 1 ∧ (syncTurn s).sync.state = .hunt ∧
      (syncTurn s).status = setRxErrBit k s.status := by
  obtain ⟨-, e⟩ | ⟨-, b, bs, -, e⟩ := syncTurn_cases s
  · simp [e]
  · rw [e]
    obtain ⟨y, -, e⟩ | ⟨k, hst, e⟩ | ⟨-, -, e⟩ := rxByte_outcome b (s.withRxs bs)
    · exact .inl (by rw [e]; rfl)
    · exact .inr ⟨k, hst, by rw [e]; exact ⟨rfl, rfl, rfl⟩⟩
    · exact .inl (by rw [e]; rfl)

/-- The host's turn moves the error counter only by `ERR_CLR`. -/
theorem hostTurn_errcnt {s t : State} (h : hostTurn s = .next t) :
    t.errcnt = s.errcnt ∨
    (t.errcnt = 0 ∧ ∃ w ops, s.host = .access (.write 0x008 4 w) :: ops ∧ opField w = 0x30) := by
  obtain ⟨ops, r, rfl⟩ | ⟨addr, n, v, ops, e, hw⟩ := hostTurn_outcome h
  · exact .inl rfl
  · obtain ⟨c, rfl⟩ | ⟨a, rfl⟩ | ⟨-, -, -, rfl⟩ | ⟨rfl, rfl, i, hd, hx⟩ | rfl := hw
    · exact .inl rfl
    · exact .inl rfl
    · exact .inl rfl
    · by_cases hi : i = .errClr
      · subst hi
        obtain rfl := Host.Outcome.next.inj hx
        exact .inr ⟨rfl, v, ops, e, by simp [opField_of_decode hd, encode]⟩
      · exact .inl (exec_errcnt hx hi :)
    · exact .inl rfl

/-- Settles O54, turn by turn. -/
theorem errorCounterChangesOnlyByItsEvents : Obligations.ErrorCounterChangesOnlyByItsEvents := by
  intro s u h
  obtain ⟨us, -, ⟨hm, rfl⟩ | ⟨hm, h⟩ | ⟨b, -, rfl⟩ | ⟨-, rfl⟩ | ⟨hs, rfl⟩⟩ := step_next_cases h
  · obtain he | ⟨k, hst, he, hst', hk⟩ := syncTurn_errcnt (s.withSchedule us)
    · exact .inl he
    · refine .inr (.inl ⟨hm, he, hst, hst', ?_, ?_⟩)
      · rw [hk]; exact setRxErrBit_rxfValid k _
      · rw [hk]; exact setRxErrBit_eq k _
  · obtain he | ⟨he, w, ops, e, hw⟩ := hostTurn_errcnt h
    · exact .inl he
    · exact .inr (.inr ⟨he, .inr ⟨w, ops, hm, e, hw⟩⟩)
  · exact .inl rfl
  · exact .inl rfl
  · exact .inr (.inr ⟨rfl, .inl (by simp [hs])⟩)

/-! ### The buffers -/

/-- A host turn changes a byte of memory only by a write of the host that covers it, and only in `TXBUF`
(10_state.md R32). -/
theorem hostTurn_memRead {s t : State} (h : hostTurn s = .next t) (a : Nat) :
    memRead t.mem a = memRead s.mem a ∨
    (a < 0x200 ∧ ∃ addr n v ops, s.host = .access (.write addr n v) :: ops ∧ addr.toNat ≤ a ∧ a < addr.toNat + n) := by
  obtain ⟨ops, r, rfl⟩ | ⟨addr, n, v, ops, e, hw⟩ := hostTurn_outcome h
  · exact .inl rfl
  · obtain ⟨c, rfl⟩ | ⟨_, rfl⟩ | ⟨-, h2, hn, rfl⟩ | ⟨-, -, i, -, hx⟩ | rfl := hw
    · exact .inl rfl
    · exact .inl rfl
    · by_cases ha : addr.toNat ≤ a ∧ a < addr.toNat + n
      · exact .inr ⟨by omega, addr, n, v, ops, e, ha⟩
      · exact .inl (memRead_writeBuf_outside hn (by omega))
    · exact .inl (exec_memRead hx a)
    · exact .inl rfl

/-- The synchronizer's turn changes a byte of memory only by a delivery of which it is a payload byte
(10_state.md R33). -/
theorem syncTurn_memRead {s : State} (hs : s.Inv) (a : Nat) :
    memRead (syncTurn s).mem a = memRead s.mem a ∨
    (0x200 ≤ a ∧ s.status.rxfValid = false ∧ (syncTurn s).status.rxfValid = true ∧
      a < 0x200 + ((syncTurn s).rxinfo.blen.toNat - 1)) := by
  obtain ⟨-, e⟩ | ⟨he, b, bs, -, e⟩ := syncTurn_cases s
  · exact .inl (by rw [e])
  · rw [e]
    obtain ⟨y, -, e⟩ | ⟨k, -, e⟩ | ⟨-, -, e⟩ := rxByte_outcome b (s.withRxs bs)
    · exact .inl (by rw [e]; rfl)
    · exact .inl (by rw [e]; rfl)
    · rw [e]
      by_cases ha : 0x200 ≤ a ∧ a < 0x200 + (s.sync.blen.toNat - 1)
      · exact .inr ⟨ha.1, hs.not_held_of_rxEnabled he, rfl, ha.2⟩
      · refine .inl (memRead_memWriteRun_outside _ _ _ _ ?_)
        simp only [rxbufBase, List.length_drop, List.length_take, withRxs_sync]
        omega

/-- Settles O55: of the agents only the host's write and the synchronizer's delivery reach memory. -/
theorem buffersChangeOnlyByTheirWriters : Obligations.BuffersChangeOnlyByTheirWriters := by
  intro s u hs h hr
  obtain ⟨us, -, ⟨hm, rfl⟩ | ⟨hm, h⟩ | ⟨b, -, rfl⟩ | ⟨-, rfl⟩ | ⟨e, -⟩⟩ := step_next_cases h
  · have key := syncTurn_memRead (s := s.withSchedule us) hs.of_unchanged
    constructor
    · intro a _ h2 hne
      obtain he | ⟨h1, -⟩ := key a
      · exact absurd he hne
      · omega
    · intro a _ hne
      obtain he | ⟨-, hd⟩ := key a
      · exact absurd he hne
      · exact ⟨hm, hd⟩
  · constructor
    · intro a _ _ hne
      obtain he | ⟨-, addr, n, v, ops, e, ha⟩ := hostTurn_memRead h a
      · exact absurd he hne
      · exact ⟨addr, n, v, ops, hm, e, ha⟩
    · intro a h1 hne
      obtain he | ⟨h2, -⟩ := hostTurn_memRead h a
      · exact absurd he hne
      · omega
  · exact ⟨fun _ _ _ hne => absurd rfl hne, fun _ _ hne => absurd rfl hne⟩
  · exact ⟨fun _ _ _ hne => absurd rfl hne, fun _ _ hne => absurd rfl hne⟩
  · simp [e] at hr

/-! ### The registers at the host port -/

theorem legalByR62_regOffset (r : Reg) : LegalByR62 (regOffset r) 4 := by
  rw [← legalAccess_iff]
  cases r <;> rfl

theorem regionOf_regOffset (r : Reg) : regionOf (regOffset r) = .registers := by cases r <;> rfl

theorem regAt_regOffset (r : Reg) : regAt (regOffset r) = r := by cases r <;> rfl

/-- A read of a register that is due answers its value and changes the host's own state alone (20_memory.md R68). -/
theorem step_registerRead {s : State} {r : Reg} {ops : List HostOp} {ts : List Turn}
    (h : HostDue s (.read (regOffset r) 4) ops ts) : step s = .next (answered s (.data 4 (readReg r s)) ops ts) := by
  rw [step_hostDue h, hostAccess, if_pos ((legalAccess_iff _ _).mpr (legalByR62_regOffset r)), readValue,
    regionOf_regOffset, regAt_regOffset]
  cases r <;> rfl

/-- A write to a register that is due is `writeReg` on the state with the write answered. -/
theorem step_registerWrite {s : State} {r : Reg} {v : Word} {ops : List HostOp} {ts : List Turn}
    (h : HostDue s (.write (regOffset r) 4 v) ops ts) : step s = writeReg r v (answered s .done ops ts) := by
  rw [step_hostDue h, hostAccess, if_pos ((legalAccess_iff _ _).mpr (legalByR62_regOffset r)), writeEffect,
    regionOf_regOffset, regAt_regOffset]
  rfl

/-- A command word that is due is the command write on the state with the write answered (10_state.md R26). -/
theorem step_commandDue {s : State} {w : Word} {ops : List HostOp} {ts : List Turn} (h : CommandDue s w ops ts) :
    step s = commandWrite w (answered s .done ops ts) :=
  step_registerWrite (r := .cmd) h

/-- Settles O4, both parts from the rules for a register access that is due. -/
theorem cmdWriteRunsTheDecodedCommand : Obligations.CmdWriteRunsTheDecodedCommand := by
  constructor
  · intro s w i ops ts h hd
    rw [step_commandDue h, commandWrite, hd]
  · intro s ops ts h
    exact step_registerRead (r := .cmd) h

/-! ### The registers' fields -/

/-- A one-bit field holds its bit at its place and 0 elsewhere. -/
@[simp] theorem getLsbD_bitAt (b : Bool) (i j : Nat) :
    (bitAt b i).getLsbD j = (decide (j < 32) && decide (i = j) && b) := by
  simp only [bitAt, BitVec.getLsbD_shiftLeft, BitVec.getLsbD_setWidth, BitVec.getLsbD_ofBool]
  grind

/-- `RX_STATE` takes two bits (10_state.md R25). -/
theorem getLsbD_rxStateCode (r : RxState) {i : Nat} (h : 2 ≤ i) : (rxStateCode r).getLsbD i = false := by
  have h4 : (rxStateCode r).toNat < 2 ^ 2 := by cases r <;> decide
  exact Nat.testBit_lt_two_pow (h4.trans_le (Nat.pow_le_pow_right two_pos h))

/-- `CMDERR_CODE` takes three bits (10_state.md R25). -/
theorem getLsbD_cmdErrCodeBits (c : CmdErrCode) {i : Nat} (h : 3 ≤ i) : (cmdErrCodeBits c).getLsbD i = false := by
  have h8 : (cmdErrCodeBits c).toNat < 2 ^ 3 := by cases c <;> decide
  exact Nat.testBit_lt_two_pow (h8.trans_le (Nat.pow_le_pow_right two_pos h))

/-- Which field each bit of `STATUS` comes from (10_state.md R25). -/
theorem getLsbD_statusWord (s : State) (i : Nat) : (statusWord s).getLsbD i = (decide (i < 32) &&
    (decide (0 = i) && s.status.rxfValid || !decide (i < 1) && (rxStateCode s.sync.state).getLsbD (i - 1) ||
      decide (3 = i) && rxStopped s || decide (4 = i) && s.status.herr || decide (5 = i) && s.status.berr ||
      decide (6 = i) && s.status.lerr || decide (7 = i) && s.status.cmderr ||
      !decide (i < 8) && (cmdErrCodeBits s.status.code).getLsbD (i - 8) || decide (11 = i) && irq s)) := by
  simp only [statusWord, BitVec.getLsbD_or, BitVec.getLsbD_shiftLeft, getLsbD_bitAt, Bool.and_or_distrib_left,
    Bool.and_assoc]

/-- Three lanes as one concatenation, highest lane first. -/
theorem threeLanes_eq_append (b0 b1 b2 : Byte) :
    atLane b0 0 ||| atLane b1 1 ||| atLane b2 2 = (0#8 ++ b2 ++ b1 ++ b0 : BitVec 32) := by
  rw [← wordOfLanes_eq_append]
  simp [wordOfLanes, atLane]

/-- `CKSUM` reads the accumulator in its low half (10_state.md R27). -/
theorem cksumWord_eq_append (s : State) : cksumWord s = (0#16 ++ s.ckAcc : BitVec 32) := by
  apply BitVec.eq_of_getLsbD_eq
  intro i hi
  simp only [cksumWord, Config.ckXorOut, BitVec.ofNat_eq_ofNat, BitVec.xor_zero, BitVec.getLsbD_setWidth,
    BitVec.getLsbD_append]
  by_cases h : i < 16
  · simp [hi, h]
  · simp [h, BitVec.getLsbD_of_ge _ _ (not_lt.mp h)]

/-- Settles O34, field by field. -/
theorem statusReadsItsFields : Obligations.StatusReadsItsFields := by
  intro s v
  have hv (i : Nat) : v.getLsbD i = _ := getLsbD_statusWord s i
  refine ⟨?_, ?_, ?_, ?_, ?_, ?_, ?_, ?_, ?_, ?_⟩
  · rw [hv]; simp
  · apply BitVec.eq_of_getLsbD_eq
    intro i hi
    rw [BitVec.getLsbD_extractLsb', hv]
    cases s.sync.state <;> interval_cases i <;> simp [rxStateCode]
  · rw [hv, getLsbD_rxStateCode _ (by omega)]; simp [rxStopped, beq_eq_decide]
  · rw [hv, getLsbD_rxStateCode _ (by omega)]; simp
  · rw [hv, getLsbD_rxStateCode _ (by omega)]; simp
  · rw [hv, getLsbD_rxStateCode _ (by omega)]; simp
  · rw [hv, getLsbD_rxStateCode _ (by omega)]; simp
  · apply BitVec.eq_of_getLsbD_eq
    intro i hi
    rw [BitVec.getLsbD_extractLsb', hv, getLsbD_rxStateCode _ (by omega)]
    cases s.status.code <;> interval_cases i <;> simp [cmdErrCodeBits]
  · rw [hv, getLsbD_rxStateCode _ (by omega), getLsbD_cmdErrCodeBits _ (by omega)]; simp
  · apply BitVec.eq_of_getLsbD_eq
    intro i hi
    rw [BitVec.getLsbD_extractLsb', hv, getLsbD_rxStateCode _ (by omega), getLsbD_cmdErrCodeBits _ (by omega)]
    grind

/-- Settles O35, the words as concatenations of their fields. -/
theorem registersReadTheirFields : Obligations.RegistersReadTheirFields := by
  intro s ops ts
  refine ⟨fun r h => step_registerRead h, rfl, cksumWord_eq_append s, rfl, threeLanes_eq_append _ _ _,
    wordOfLanes_eq_append _ _ _ _, threeLanes_eq_append _ _ _, ?_, rfl⟩
  apply BitVec.eq_of_getLsbD_eq
  intro i hi
  have h4 (j : Nat) (hj : j < 4) : j ≠ 4 + i := by omega
  simp [readReg, ctrlWord, h4]

/-- Settles O56: the scheduled turn is the step. -/
theorem lineActionsTouchOnlyTheirStream : Obligations.LineActionsTouchOnlyTheirStream := by
  constructor
  · intro s b ts h
    rw [step_scheduled h]
    rfl
  · intro s ts h
    rw [step_scheduled h]
    rfl

end Sys2Proof.Machine
end

section
/-! PROOFS. The memory: the legal accesses of the host port, the buffers as one array of bytes, and what an agent's
turn leaves alone: the synchronizer's frame, the transmit stream, a held frame. Rules of 20_memory.md are cited by
their number alone. -/

namespace Sys2Proof.Machine

/-! ### Legal accesses (R61, R62) -/

/-- A legal access answers (R62). -/
theorem hostAccess_completes {a : Access} (hl : LegalByR62 (accessAddr a) (accessWidth a)) (s : State) :
    ∃ t, hostAccess a s = .next t := by
  rw [← legalAccess_iff] at hl
  cases a with
  | read addr n => exact ⟨_, if_pos hl⟩
  | write addr n v =>
    obtain ⟨t, ht⟩ := writeEffect_completes addr n v (s.withResp .done)
    exact ⟨t, (if_pos hl).trans ht⟩

/-- Any other access is a BusError at its address (60_exceptions.md R222). -/
theorem hostAccess_busError {a : Access} (hl : ¬ LegalByR62 (accessAddr a) (accessWidth a)) (s : State) :
    hostAccess a s = .fault (.busError (accessAddr a)) := by
  rw [← legalAccess_iff] at hl
  cases a with
  | read addr n => exact if_neg hl
  | write addr n v => exact if_neg hl

/-- The step past the BusError of an access that is due is the error response alone (60_exceptions.md R222, R228). -/
theorem stepPastBusError_hostDue {s : State} {a : Access} {ops : List HostOp} {ts : List Turn} {addr : HostAddr}
    (h : HostDue s a ops ts) (hf : step s = .fault (.busError addr)) :
    stepPastBusError s = .next (answered s (.busError addr) ops ts) := by
  obtain ⟨hs, ho⟩ := h
  simp only [stepPastBusError, hf, afterBusError, hs, ho, List.tail_cons]
  rfl

/-- Settles O25, by the two outcomes of a host access. -/
theorem busErrorExactlyOnIllegalAccess : Obligations.BusErrorExactlyOnIllegalAccess := by
  intro s a ops ts h
  rw [step_hostDue h]
  constructor
  · intro hl
    exact hostAccess_completes hl _
  · intro hl
    have hf := hostAccess_busError hl ((s.withSchedule ts).withHost ops)
    exact ⟨hf, stepPastBusError_hostDue h ((step_hostDue h).trans hf)⟩

/-! ### Reads, and writes to read-only locations (R63, R68) -/

/-- What a read gives does not depend on the host's own state. -/
theorem readValue_answered (addr : HostAddr) (n : Nat) (s : State) (r : Response) (ops : List HostOp) (ts : List Turn) :
    readValue addr n (answered s r ops ts) = readValue addr n s := by
  unfold readValue
  split
  · cases regAt addr <;> rfl
  · rfl

/-- A legal read that is due answers its value and changes the host's own state alone (R68). -/
theorem step_read {s : State} {addr : HostAddr} {n : Nat} {ops : List HostOp} {ts : List Turn}
    (h : HostDue s (.read addr n) ops ts) (hl : LegalByR62 addr n) :
    step s = .next (answered s (.data n (readValue addr n s)) ops ts) := by
  rw [step_hostDue h, hostAccess, if_pos ((legalAccess_iff _ _).mpr hl), ← readValue_answered addr n s s.resp ops ts]
  rfl

/-- Settles O27: the state after the read gives the same value. -/
theorem hostReadsHaveNoSideEffect : Obligations.HostReadsHaveNoSideEffect := by
  intro s addr n ops ts h hl
  refine ⟨readValue addr n s, step_read h hl, fun ops' ts' => ?_⟩
  have hdue : HostDue (answered s (.data n (readValue addr n s)) (.access (.read addr n) :: ops') (.host :: ts'))
      (.read addr n) ops' ts' := ⟨rfl, rfl⟩
  have hstep := step_read hdue hl
  rw [readValue_answered] at hstep
  exact hstep

/-- A legal write to `RXBUF` completes and changes the host's own state alone (R63). -/
theorem step_rxbufWrite {s : State} {addr : HostAddr} {n : Nat} {v : Word} {ops : List HostOp} {ts : List Turn}
    (h : HostDue s (.write addr n v) ops ts) (hl : LegalByR62 addr n) (h1 : 0x200 ≤ addr.toNat) (h2 : addr.toNat < 0x300) :
    step s = .next (answered s .done ops ts) := by
  rw [step_hostDue h, hostAccess, if_pos ((legalAccess_iff _ _).mpr hl), writeEffect, regionOf_rxbuf h1 h2]
  rfl

/-- Settles O28, each register by its offset. -/
theorem writesToReadOnlyLocationsAreIgnored : Obligations.WritesToReadOnlyLocationsAreIgnored := by
  refine ⟨fun s addr v ops ts ha h => ?_, fun s addr n v ops ts h1 h2 hn h => ?_, fun s ops ts h => ?_⟩
  · simp only [List.mem_cons, List.not_mem_nil, or_false] at ha
    obtain rfl | rfl | rfl | rfl | rfl := ha
    · exact step_registerWrite (r := .status) h
    · exact step_registerWrite (r := .cksum) h
    · exact step_registerWrite (r := .errcnt) h
    · exact step_registerWrite (r := .rxhdr) h
    · exact step_registerWrite (r := .rxinfo) h
  · exact step_rxbufWrite h (.inr ⟨by omega, h2, hn⟩) h1 h2
  · exact step_registerRead (r := .cmd) h

/-! ### The lanes of a buffer access (R64) -/

/-- A 4-byte buffer read is its four bytes, the lowest address in the lowest lane. -/
theorem readBuf_four (m : Memory) (a : Nat) : readBuf m a 4 =
    (memByte m (a + 3) ++ memByte m (a + 2) ++ memByte m (a + 1) ++ memByte m (a + 0) : BitVec 32) :=
  wordOfLanes_eq_append _ _ _ _

/-- A 1-byte buffer write is the write of its lowest lane. -/
theorem writeBuf_one (m : Memory) (a : Nat) (v : Word) : writeBuf m a 1 v = memWrite m a (v.extractLsb' 0 8) := rfl

/-- Each lane of a buffer read is the byte at its address. -/
theorem lane_readBuf (m : Memory) (a : Nat) {n j : Nat} (hn : n = 1 ∨ n = 4) (hj : j < n) :
    (readBuf m a n).extractLsb' (8 * j) 8 = memByte m (a + j) := by
  obtain rfl | rfl := hn
  · obtain rfl : j = 0 := by omega
    rw [readBuf_one]
    exact BitVec.extractLsb'_setWidth_of_le (by decide) |>.trans BitVec.extractLsb'_eq_self
  · have hl := lane_wordOfLanes (memByte m a) (memByte m (a + 1)) (memByte m (a + 2)) (memByte m (a + 3))
    simp only [lanesOfWord, List.cons.injEq, and_true] at hl
    obtain ⟨h0, h1, h2, h3⟩ := hl
    interval_cases j
    · exact h0
    · exact h1
    · exact h2
    · exact h3

/-- Settles O32, lane by lane. -/
theorem bufferReadGivesItsBytes : Obligations.BufferReadGivesItsBytes := by
  intro s addr n ops ts h1 h2 hn h
  refine ⟨_, step_bufferRead h (.inr ⟨h1, h2, hn⟩) h1, fun j hj => lane_readBuf _ _ (hn.imp_right And.left) hj, ?_⟩
  rintro rfl
  rw [readBuf_one]
  apply BitVec.eq_of_getLsbD_eq
  intro i hi
  simp

/-! ### Accesses of both widths see one array of bytes (R66) -/

/-- The four bytes of an aligned 4-byte access to a buffer lie at consecutive addresses. -/
theorem toNat_add_lane {addr : HostAddr} {j : Nat} (h : addr.toNat < 0x300) (hj : j < 4) :
    (addr + BitVec.ofNat 12 j).toNat = addr.toNat + j := by
  rw [BitVec.toNat_add, BitVec.toNat_ofNat]
  omega

/-- A 1-byte read of one of the four bytes of an aligned 4-byte access. -/
theorem step_laneRead {s : State} {addr : HostAddr} {j : Nat} {ops : List HostOp} {ts : List Turn}
    (h : HostDue s (.read (addr + BitVec.ofNat 12 j) 1) ops ts) (h1 : 0x100 ≤ addr.toNat) (h2 : addr.toNat < 0x300)
    (h4 : addr.toNat % 4 = 0) (hj : j < 4) :
    step s = .next (answered s (.data 1 ((memByte s.mem (addr.toNat + j)).setWidth 32)) ops ts) := by
  have ha := toNat_add_lane h2 hj
  rw [step_bufferRead h (.inr ⟨by omega, by omega, .inl rfl⟩) (by omega), readBuf_one, ha]

/-- A 4-byte write to `TXBUF` puts each lane of its value at its address. -/
theorem memByte_writeBuf_four {m : Memory} (hm : m.wf = true) {a j : Nat} (v : Word) (h1 : 0x100 ≤ a) (h2 : a + j < 0x300)
    (hj : j < 4) : memByte (writeBuf m a 4 v) (a + j) = v.extractLsb' (8 * j) 8 := by
  have hr : memRead (writeBuf m a 4 v) (a + j) = (lanesOfWord v)[j]? :=
    memRead_memWriteRun_inside _ _ _ _ hj ((wf_memRead_isSome hm _).mpr ⟨by omega, h2⟩)
  rw [memByte, hr]
  interval_cases j <;> rfl

/-- 1-byte writes of the host to `TXBUF`, one a turn: each address written holds its byte, every other address is left
alone. -/
theorem runSteps_byteWrites {addr : HostAddr} (v : Nat → Word) (h1 : 0x100 ≤ addr.toNat) (h2 : addr.toNat < 0x200)
    (h4 : addr.toNat % 4 = 0) {ops : List HostOp} {ts : List Turn} (order : List Nat) (hlt : ∀ j ∈ order, j < 4) :
    ∀ s : State, s.mem.wf = true → s.schedule = List.replicate order.length .host ++ ts →
    s.host = order.map (fun j => HostOp.access (.write (addr + BitVec.ofNat 12 j) 1 (v j))) ++ ops →
    ∃ u, runSteps order.length s = .next u ∧
      (∀ j ∈ order, memByte u.mem (addr.toNat + j) = (v j).extractLsb' 0 8) ∧
      ∀ a, (∀ j ∈ order, a ≠ addr.toNat + j) → memByte u.mem a = memByte s.mem a := by
  induction order with
  | nil =>
    intro s _ _ _
    exact ⟨s, rfl, by simp, fun _ _ => rfl⟩
  | cons j js ih =>
    intro s hm hs ho
    obtain ⟨hj, hjs⟩ := List.forall_mem_cons.mp hlt
    have ha := toNat_add_lane (show addr.toNat < 0x300 by omega) hj
    have hstep := step_txbufWrite ⟨hs, ho⟩ (.inr ⟨by omega, by omega, .inl rfl⟩) (by omega) (by omega)
    rw [ha, writeBuf_one] at hstep
    obtain ⟨u, hu, hin, hout⟩ := ih hjs ((answered s .done _ _).withMem _) (memWrite_wf hm _ _) rfl rfl
    refine ⟨u, ?_, fun k hk => ?_, fun a hne => ?_⟩
    · rw [List.length_cons, runSteps, hstep]
      exact hu
    · by_cases hkj : k ∈ js
      · exact hin k hkj
      · obtain rfl : k = j := by simpa [hkj] using hk
        rw [hout _ fun i hi he => hkj (by rwa [Nat.add_left_cancel he])]
        exact memByte_memWrite_same hm _ (by omega) (by omega)
    · obtain ⟨hn, hns⟩ := List.forall_mem_cons.mp hne
      rw [hout a hns]
      exact memByte_memWrite_ne _ _ hn

/-- Settles O33: every read gives the bytes that the writes left. -/
theorem mixedWidthAccessesSeeOneArray : Obligations.MixedWidthAccessesSeeOneArray := by
  refine ⟨fun s addr v ops ts hm h1 h2 h4 h => ?_, fun s addr v order ops ts hm h1 h2 h4 hp hs ho => ?_,
    fun s addr ops ts h1 h2 h4 h => ?_⟩
  · refine ⟨_, step_txbufWrite h (.inr ⟨h1, by omega, .inr ⟨rfl, h4⟩⟩) h1 h2, fun j t ops' ts' hj ht hr => ?_⟩
    rw [step_laneRead hr h1 (by omega) h4 hj, ht, withMem_mem, memByte_writeBuf_four hm v h1 (by omega) hj]
  · have hlen : order.length = 4 := hp.length_eq
    have hmem (j : Nat) : j ∈ order ↔ j < 4 := by rw [hp.mem_iff]; simp; omega
    obtain ⟨u, hu, hin, -⟩ := runSteps_byteWrites v h1 h2 h4 order (fun j => (hmem j).mp) s hm (by rwa [hlen]) ho
    rw [hlen] at hu
    have hb (j : Nat) (hj : j < 4) := hin j ((hmem j).mpr hj)
    refine ⟨u, hu, fun t ops' ts' ht hr => ?_⟩
    rw [step_bufferRead hr (.inr ⟨h1, by omega, .inr ⟨rfl, h4⟩⟩) h1, ht, readBuf_four, hb 0 (by decide),
      hb 1 (by decide), hb 2 (by decide), hb 3 (by decide)]
  · refine ⟨_, step_bufferRead h (.inr ⟨h1, h2, .inr ⟨rfl, h4⟩⟩) h1, fun j t ops' ts' hj ht hr => ?_⟩
    rw [step_laneRead hr h1 h2 h4 hj, ht, lane_readBuf _ _ (.inr rfl) hj]

/-! ### The frame of the synchronizer's turn (R69) -/

/-- The synchronizer's turn writes its internal state, `STATUS` without `CMDERR` and its code, `ERRCNT`, `RXHDR`,
`RXINFO` and memory, and takes at most the oldest byte of its stream; it writes nothing else. -/
theorem syncTurn_frame (s : State) :
    ∃ (q : Status) (e : Word) (h : RxHdr) (i : RxInfo) (m : Memory) (y : Sync) (rs : List Byte),
    syncTurn s = { s with status := q, errcnt := e, rxhdr := h, rxinfo := i, mem := m, sync := y, rxs := rs } ∧
    q.cmderr = s.status.cmderr ∧ q.code = s.status.code ∧ (rs = s.rxs ∨ rs = s.rxs.tail) := by
  obtain ⟨-, e⟩ | ⟨-, b, bs, hb, e⟩ := syncTurn_cases s
  · exact ⟨_, _, _, _, _, _, _, e, rfl, rfl, .inl rfl⟩
  · have ht : bs = s.rxs ∨ bs = s.rxs.tail := .inr (by rw [hb]; rfl)
    rw [e]
    obtain ⟨y, -, e⟩ | ⟨k, -, e⟩ | ⟨-, -, e⟩ := rxByte_outcome b (s.withRxs bs)
    · exact ⟨_, _, _, _, _, _, _, e, rfl, rfl, ht⟩
    · exact ⟨_, _, _, _, _, _, _, e, setRxErrBit_cmderr _ _, setRxErrBit_code _ _, ht⟩
    · exact ⟨_, _, _, _, _, _, _, e, rfl, rfl, ht⟩

/-- Settles O43: a delivery has at most 254 payload bytes. -/
theorem synchronizerChangesOnlyItsOwnState : Obligations.SynchronizerChangesOnlyItsOwnState := by
  intro s ts hs h
  have hmem (a : Nat) (ha : a < 0x200 ∨ 0x2FE ≤ a) :
      memRead (syncTurn (s.withSchedule ts)).mem a = memRead s.mem a := by
    obtain he | ⟨h1, -, -, h2⟩ := syncTurn_memRead (s := s.withSchedule ts) hs.of_unchanged a
    · exact he
    · have hb := (syncTurn (s.withSchedule ts)).rxinfo.blen.isLt
      omega
  refine ⟨_, step_syncDue h, ?_⟩
  obtain ⟨q, _, _, _, _, _, rs, e, hce, hcode, hrs⟩ := syncTurn_frame (s.withSchedule ts)
  rw [e] at hmem ⊢
  exact ⟨rfl, rfl, rfl, rfl, rfl, rfl, rfl, hce, hcode, hrs, hmem⟩

/-! ### The transmit stream (R76) -/

/-- A word that decodes to `TX_FRAME` carries its operands (30_encoding.md R98). -/
theorem fields_of_decode_txFrame {w : Word} {t n : Byte} (h : decode w = .ok (.txFrame t n)) :
    opField w = 0x10 ∧ t = aField w ∧ n = bField w := by
  refine ⟨by simpa [encode] using opField_of_decode h, ?_⟩
  unfold decode at h
  split at h <;> simp at h
  exact ⟨h.1.symm, h.2.symm⟩

/-- A command moves the transmit stream only by `TX_FRAME` with a payload that fits (41_framer.md R140, R143). -/
theorem exec_txs {i : Instr} {s u : State} (h : exec i s = .next u) :
    u.txs = s.txs ∨
    ∃ t n, i = .txFrame t n ∧ n.toNat ≤ 254 ∧ u.txs = s.txs ++ frameOf s.addr t n (txPayload s n) := by
  obtain ⟨-, rfl⟩ | ⟨-, rfl⟩ | ⟨b, -, rfl⟩ | ⟨t, n, -, -, rfl⟩ | ⟨t, n, hi, hn, rfl⟩ | ⟨-, rfl⟩ | ⟨-, rfl⟩ |
    ⟨-, rfl⟩ | ⟨-, rfl⟩ := exec_next_cases h
  · exact .inl rfl
  · exact .inl rfl
  · exact .inl rfl
  · exact .inl rfl
  · exact .inr ⟨t, n, hi, hn, by rw [advanceSeq_eq]; rfl⟩
  · exact .inl rfl
  · exact .inl rfl
  · exact .inl rfl
  · exact .inl rfl

/-- A host turn moves the transmit stream only by `TX_FRAME` with a payload that fits, and then by the whole frame
(41_framer.md R140, R143). -/
theorem hostTurn_txs {s t : State} (h : hostTurn s = .next t) :
    t.txs = s.txs ∨
    ∃ w ops, s.host = .access (.write 0x008 4 w) :: ops ∧ opField w = 0x10 ∧ (bField w).toNat ≤ 254 ∧
      t.txs = s.txs ++ frameOf s.addr (aField w) (bField w) (txPayload s (bField w)) := by
  obtain ⟨ops, r, rfl⟩ | ⟨addr, n, v, ops, e, hw⟩ := hostTurn_outcome h
  · exact .inl rfl
  · obtain ⟨c, rfl⟩ | ⟨a, rfl⟩ | ⟨-, -, -, rfl⟩ | ⟨rfl, rfl, i, hd, hx⟩ | rfl := hw
    · exact .inl rfl
    · exact .inl rfl
    · exact .inl rfl
    · obtain ht | ⟨ty, n, rfl, hn, ht⟩ := exec_txs hx
      · exact .inl ht
      · obtain ⟨hop, rfl, rfl⟩ := fields_of_decode_txFrame hd
        exact .inr ⟨v, ops, e, hop, hn, ht⟩
    · exact .inl rfl

/-- Settles O18, turn by turn. -/
theorem transmitStreamGrowsByWholeFrames : Obligations.TransmitStreamGrowsByWholeFrames := by
  intro s u h
  obtain ⟨us, -, ⟨-, rfl⟩ | ⟨hm, h⟩ | ⟨b, -, rfl⟩ | ⟨hs, rfl⟩ | ⟨-, rfl⟩⟩ := step_next_cases h
  · obtain ⟨_, _, _, _, _, _, _, e, -⟩ := syncTurn_frame (s.withSchedule us)
    exact .inl (by rw [e]; rfl)
  · obtain he | ⟨w, ops, hw⟩ := hostTurn_txs h
    · exact .inl he
    · exact .inr (.inr ⟨w, ops, hm, hw⟩)
  · exact .inl rfl
  · exact .inr (.inl ⟨by rw [hs]; rfl, rfl⟩)
  · exact .inl rfl

/-! ### A held frame (R75) -/

/-- Every command keeps `RXHDR` and `RXINFO`, and only `RX_POP` touches `RXF_VALID`. -/
theorem exec_heldFrame {i : Instr} {s u : State} (h : exec i s = .next u) :
    u.rxhdr = s.rxhdr ∧ u.rxinfo = s.rxinfo ∧ (i ≠ .rxPop → u.status.rxfValid = s.status.rxfValid) := by
  obtain ⟨-, -, hh, hi, -, -, -, -, -, -, -, -, -, -, -, hv, -⟩ := commandsChangeOnlyTheirOwnState i s u h
  exact ⟨hh, hi, hv⟩

/-- A host turn keeps `RXHDR` and `RXINFO`, and lets go of a held frame only by `RX_POP`. -/
theorem hostTurn_heldFrame {s t : State} (hf : s.status.rxfValid = true) (h : hostTurn s = .next t) :
    t.rxhdr = s.rxhdr ∧ t.rxinfo = s.rxinfo ∧
    (t.status.rxfValid = true ∨ ∃ w ops, s.host = .access (.write 0x008 4 w) :: ops ∧ opField w = 0x20) := by
  obtain ⟨ops, r, rfl⟩ | ⟨addr, n, v, ops, e, hw⟩ := hostTurn_outcome h
  · exact ⟨rfl, rfl, .inl hf⟩
  · obtain ⟨c, rfl⟩ | ⟨a, rfl⟩ | ⟨-, -, -, rfl⟩ | ⟨rfl, rfl, i, hd, hx⟩ | rfl := hw
    · exact ⟨rfl, rfl, .inl hf⟩
    · exact ⟨rfl, rfl, .inl hf⟩
    · exact ⟨rfl, rfl, .inl hf⟩
    · obtain ⟨hh, hri, hv⟩ := exec_heldFrame hx
      refine ⟨hh, hri, ?_⟩
      by_cases hi : i = .rxPop
      · subst hi
        exact .inr ⟨v, ops, e, by simp [opField_of_decode hd, encode]⟩
      · exact .inl ((hv hi).trans hf)
    · exact ⟨rfl, rfl, .inl hf⟩

/-- Settles O48: while a frame is held the synchronizer has no step. -/
theorem heldFrameIsStableUntilPopped : Obligations.HeldFrameIsStableUntilPopped := by
  intro s u hs hf h
  obtain ⟨us, -, ⟨-, rfl⟩ | ⟨hm, h⟩ | ⟨b, -, rfl⟩ | ⟨-, rfl⟩ | ⟨e, -⟩⟩ := step_next_cases h
  · have hi : (s.withSchedule us).Inv := hs.of_unchanged
    obtain ⟨-, e⟩ | ⟨he, -⟩ := syncTurn_cases (s.withSchedule us)
    · rw [e]
      exact .inr ⟨rfl, rfl, fun _ _ => rfl, .inl hf⟩
    · exact absurd ((hi.not_held_of_rxEnabled he).symm.trans hf) Bool.false_ne_true
  · obtain ⟨hh, hi, hv⟩ := hostTurn_heldFrame (s := s.withSchedule us) hf h
    refine .inr ⟨hh, hi, fun a ha => ?_, hv.imp_right fun ⟨w, ops, hw⟩ => ⟨w, ops, hm, hw⟩⟩
    obtain he | ⟨h2, -⟩ := hostTurn_memRead h a
    · exact he
    · omega
  · exact .inr ⟨rfl, rfl, fun _ _ => rfl, .inl hf⟩
  · exact .inr ⟨rfl, rfl, fun _ _ => rfl, .inl hf⟩
  · exact .inl (by rw [e]; rfl)

end Sys2Proof.Machine
end

section
/-! PROOFS. Command words and the lines that stand for them: which words decode to a command, which are illegal, and
what the assembler and the two operations that follow a value read put on the host port. Rules of 30_encoding.md are
cited by their number alone. -/

namespace Sys2Proof.Machine

/-! ### The fields of a word (R90) -/

/-- The fields of a word do not overlap. -/
theorem packWord_inj {op a b op' a' b' : Byte} : packWord op a b = packWord op' a' b' ↔ op = op' ∧ a = a' ∧ b = b' := by
  constructor
  · intro h
    exact ⟨by simpa using congrArg opField h, by simpa using congrArg aField h, by simpa using congrArg bField h⟩
  · rintro ⟨rfl, rfl, rfl⟩
    rfl

/-! What each of the three masks of `usedMask` leaves of a word, as fields. -/

theorem and_opMask (w : Word) : w &&& 0xFF000000 = packWord (opField w) 0 0 := by
  apply BitVec.eq_of_getLsbD_eq
  intro i hi
  interval_cases i <;> simp [packWord, opField]

theorem and_opAMask (w : Word) : w &&& 0xFFFF0000 = packWord (opField w) (aField w) 0 := by
  apply BitVec.eq_of_getLsbD_eq
  intro i hi
  interval_cases i <;> simp [packWord, opField, aField]

theorem and_opABMask (w : Word) : w &&& 0xFFFFFF00 = packWord (opField w) (aField w) (bField w) := by
  apply BitVec.eq_of_getLsbD_eq
  intro i hi
  interval_cases i <;> simp [packWord, opField, aField, bField]

/-- Every command's mask holds the opcode (R98). -/
theorem opField_and_usedMask (w : Word) (i : Instr) : opField (w &&& usedMask i) = opField w := by
  cases i with
  | ckFeed b => rw [usedMask, and_opAMask, opField_packWord]
  | txFrame t n => rw [usedMask, and_opABMask, opField_packWord]
  | _ =>
    unfold usedMask
    rw [and_opMask, opField_packWord]

/-- Under a command's opcode the decoder and the command's mask read the same operands (R98, R99). -/
theorem decode_iff_of_opField {w : Word} {i : Instr} (h : opField w = opField (encode i)) :
    decode w = .ok i ↔ w &&& usedMask i = encode i := by
  cases i with
  | ckFeed b =>
    rw [encode, opField_packWord] at h
    rw [usedMask, encode, and_opAMask, packWord_inj]
    simp [decode, h]
  | txFrame t n =>
    rw [encode, opField_packWord] at h
    rw [usedMask, encode, and_opABMask, packWord_inj]
    simp [decode, h]
  | _ =>
    simp only [encode, opField_packWord] at h
    simp only [usedMask, encode]
    rw [and_opMask]
    simp [decode, h]

/-- Either side fixes the opcode, and under the opcode both read the same operands. -/
theorem decode_eq_ok_iff {w : Word} {i : Instr} : decode w = .ok i ↔ w &&& usedMask i = encode i := by
  constructor
  · intro h
    exact (decode_iff_of_opField (opField_of_decode h)).mp h
  · intro h
    have hop : opField w = opField (encode i) := by rw [← h, opField_and_usedMask]
    exact (decode_iff_of_opField hop).mpr h

/-- A command's word is 0 outside the bits that the command reads (R99, R103). -/
theorem encode_and_usedMask (i : Instr) : encode i &&& usedMask i = encode i := by
  cases i with
  | nop => exact Laws.EncodeInMask.nop
  | ckInit => exact Laws.EncodeInMask.ckInit
  | ckFeed b => exact Laws.EncodeInMask.ckFeed b
  | txFrame t n => exact Laws.EncodeInMask.txFrame t n
  | rxPop => exact Laws.EncodeInMask.rxPop
  | rxFlush => exact Laws.EncodeInMask.rxFlush
  | errClr => exact Laws.EncodeInMask.errClr
  | stClr => exact Laws.EncodeInMask.stClr

/-- Settles O1: the decoder and the mask agree, and a command's own word lies within its mask. -/
theorem commandWordDecodesByItsUsedBits : Obligations.CommandWordDecodesByItsUsedBits :=
  ⟨fun i => decode_eq_ok_iff.mpr (encode_and_usedMask i), fun _ _ => decode_eq_ok_iff⟩

/-! ### Illegal words (R100) -/

/-- The decoder refuses a word exactly for an opcode outside the table, and then by that opcode (R98, R100). -/
theorem decode_eq_error_iff (w : Word) : decode w = .error (.illegalOpcode (opField w)) ↔ opField w ∉ definedOpcodes := by
  unfold decode
  split
  case h_9 h00 h01 h02 h10 h20 h21 h30 h31 =>
    simpa [definedOpcodes, ← BitVec.toNat_inj] using ⟨h00, h01, h02, h10, h20, h21, h30, h31⟩
  all_goals simp [definedOpcodes, ← BitVec.toNat_inj, *]

/-- Settles O2: the command write of a word that the decoder refuses records the error. -/
theorem illegalCommandIsRecordedAndNothingElse : Obligations.IllegalCommandIsRecordedAndNothingElse := by
  refine ⟨decode_eq_error_iff, by decide +kernel, fun s w ops ts h hop => ?_⟩
  rw [step_commandDue h, commandWrite, (decode_eq_error_iff w).mpr hop]
  rfl

/-- Settles O3, each word by evaluation. -/
theorem wordsOfTheSpecDecode : Obligations.WordsOfTheSpecDecode :=
  ⟨rfl, rfl, rfl, rfl, rfl, rfl, rfl, rfl, rfl, rfl⟩

/-! ### Operations that follow a value read (R104) -/

/-- A read of a register answers its value in any state (20_memory.md R62, R68). -/
theorem hostAccess_registerRead (r : Reg) (s : State) :
    hostAccess (.read (regOffset r) 4) s = .next (s.withResp (.data 4 (readReg r s))) := by
  rw [hostAccess, if_pos ((legalAccess_iff _ _).mpr (legalByR62_regOffset r)), readValue, regionOf_regOffset,
    regAt_regOffset]

/-- The bit that `WAIT_RX` tests is `RXF_VALID` (10_state.md R25). -/
theorem waitAgain_statusWord (s : State) : waitAgain (statusWord s) = !s.status.rxfValid := by
  rw [waitAgain, getLsbD_statusWord]
  simp

/-- `WAIT_RX` is one read of `STATUS`, and is still pending while no frame is held. -/
theorem step_waitRx {s : State} {ops : List HostOp} {ts : List Turn} (hs : s.schedule = .host :: ts)
    (ho : s.host = .waitRx :: ops) :
    step s = .next (answered s (.data 4 (readReg .status s)) (if s.status.rxfValid then ops else s.host) ts) := by
  simp only [step_scheduled hs, takeTurn, hostTurn, withSchedule_host, ho, hostAccess_registerRead,
    waitAgain_statusWord, withSchedule_status]
  cases s.status.rxfValid with
  | false =>
    rw [← ho]
    rfl
  | true => rfl

/-- The `RXINFO` read of `RECV` puts the rest of `RECV` before the pending operations. -/
theorem step_recvInfo {s : State} {ops : List HostOp} {ts : List Turn} (hs : s.schedule = .host :: ts)
    (ho : s.host = .recvInfo :: ops) :
    step s = .next (answered s (.data 4 (readReg .rxinfo s)) (recvTail s.rxinfo.blen ++ ops) ts) := by
  simp only [step_scheduled hs, takeTurn, hostTurn, withSchedule_host, ho, hostAccess_registerRead]
  rfl

/-- Settles O57: `recvTail` is the byte reads and the `RX_POP` write of the statement. -/
theorem waitRxAndRecvFollowTheValueRead : Obligations.WaitRxAndRecvFollowTheValueRead :=
  ⟨fun _ _ _ => step_waitRx, fun _ _ _ => step_recvInfo⟩

/-! ### The assembler (R103) -/

theorem fitsByte_iff (v : Nat) : fitsByte v = true ↔ v ≤ 255 := by
  rw [fitsByte, decide_eq_true_iff]
  omega

theorem setWidth_ofNat_of_le {v : Nat} (h : v ≤ 255) : (BitVec.ofNat 8 v).setWidth 32 = BitVec.ofNat 32 v := by
  apply BitVec.eq_of_toNat_eq
  simp only [BitVec.toNat_setWidth, BitVec.toNat_ofNat]
  omega

theorem encode_ckFeed_ofNat {b : Nat} (hb : b ≤ 255) :
    encode (.ckFeed (BitVec.ofNat 8 b)) = 0x02000000 ||| BitVec.ofNat 32 b <<< 16 := by
  simp [encode, packWord, setWidth_ofNat_of_le hb]

theorem encode_txFrame_ofNat {t n : Nat} (ht : t ≤ 255) (hn : n ≤ 255) :
    encode (.txFrame (BitVec.ofNat 8 t) (BitVec.ofNat 8 n)) =
      0x10000000 ||| BitVec.ofNat 32 t <<< 16 ||| BitVec.ofNat 32 n <<< 8 := by
  simp [encode, packWord, setWidth_ofNat_of_le ht, setWidth_ofNat_of_le hn]

/-- Settles O58: a line with operands is accepted when each fits a byte; the six bare lines by evaluation. -/
theorem assemblerWritesTheTablesWords : Obligations.AssemblerWritesTheTablesWords := by
  refine ⟨fun b => ?_, fun t n => ?_, rfl⟩
  · simp only [assemble, AsmLine.wf, fitsByte_iff]
    split
    · next hb =>
      rw [← encode_ckFeed_ofNat hb]
      rfl
    · rfl
  · simp only [assemble, AsmLine.wf, Bool.and_eq_true, fitsByte_iff]
    split
    · next h =>
      rw [← encode_txFrame_ofNat h.1 h.2]
      rfl
    · rfl

end Sys2Proof.Machine
end

section
/-! PROOFS. The checksum unit: the checksum as an iterated shift, as an affine map, as a check of single bits and as a
remainder over GF(2), and its two commands. Rules of 40_checksum.md are cited by their number alone. -/

namespace Sys2Proof.Machine

/-! ### The shift register (R120, R121) -/

theorem ckShifts_eq_iterate (k : Nat) (r : Half) : ckShifts k r = ckShift^[k] r := by
  induction k generalizing r with
  | zero => rfl
  | succ k ih => rw [ckShifts, ih, Function.iterate_succ_apply]

/-- `CK_XOROUT` is 0 on this hardware, so the checksum is the register as it stands (93_implementation_defined.md I4). -/
theorem ck_eq_ckRun (bs : List Byte) : ck bs = ckRun Config.ckInitValue bs := by simp [ck, Config.ckXorOut]

/-- Settles O5: eight shifts are the eighth iterate of one, and a run over an appended byte ends with that byte. -/
theorem checksumIsTheShiftRegister : Obligations.ChecksumIsTheShiftRegister := by
  refine ⟨fun c b => ckShifts_eq_iterate 8 _, rfl, fun bs b => ?_⟩
  rw [ck_eq_ckRun, ck_eq_ckRun, ckRun_append]
  rfl

/-! ### Affinity (R123) -/

/-- A run is linear in its start value and its bytes together; the third operand has the bytes 0. -/
theorem ckRun_zipWith_xor (c d e : Half) {as bs : List Byte} (h : as.length = bs.length) :
    ckRun (c ^^^ d ^^^ e) (List.zipWith (· ^^^ ·) as bs) =
      ckRun c as ^^^ ckRun d bs ^^^ ckRun e (List.replicate as.length 0) := by
  induction as generalizing c d e bs with
  | nil =>
    obtain rfl := List.length_eq_zero_iff.mp h.symm
    rfl
  | cons a as ih =>
    obtain ⟨b, bs, rfl⟩ := List.exists_cons_of_length_eq_add_one h.symm
    have hstep : ckstep (c ^^^ d ^^^ e) (a ^^^ b) = ckstep c a ^^^ ckstep d b ^^^ ckstep e 0 := by
      rw [← ckstep_xor, ← ckstep_xor, BitVec.ofNat_eq_ofNat, BitVec.xor_zero]
    simp only [List.zipWith_cons_cons, List.length_cons, List.replicate_succ, ckRun, hstep]
    exact ih _ _ _ (Nat.succ.inj h)

/-- Settles O8: three runs from the initial value are one run from it. -/
theorem checksumIsAffine : Obligations.ChecksumIsAffine := by
  intro as bs h
  simp only [ck_eq_ckRun, ← ckRun_zipWith_xor _ _ _ h, BitVec.xor_self, BitVec.zero_xor]

/-! ### No step loses a difference (R123) -/

/-- The polynomial has bit 0 set, so a shift keeps the bit that it moves out. -/
theorem getLsbD_zero_ckShift (r : Half) : (ckShift r).getLsbD 0 = r.getLsbD 15 := by
  unfold ckShift
  split <;> simp_all [Config.ckPoly]

theorem ckShift_injective : Function.Injective ckShift := by
  intro x y h
  have htop : x.getLsbD 15 = y.getLsbD 15 := by rw [← getLsbD_zero_ckShift, h, getLsbD_zero_ckShift]
  have hlow : x <<< 1 = y <<< 1 := by
    unfold ckShift at h
    rw [htop] at h
    split at h
    · exact (BitVec.xor_left_inj _).mp h
    · exact h
  apply BitVec.eq_of_getLsbD_eq
  intro i hi
  obtain rfl | h15 : i = 15 ∨ i + 1 < 16 := by omega
  · exact htop
  · simpa [h15, hi] using congrArg (·.getLsbD (i + 1)) hlow

theorem ckShifts_injective (k : Nat) : Function.Injective (ckShifts k) := by
  rw [funext (ckShifts_eq_iterate k)]
  exact ckShift_injective.iterate k

theorem ckstep_left_inj {c d : Half} {b : Byte} : ckstep c b = ckstep d b ↔ c = d := by
  rw [ckstep, ckstep, (ckShifts_injective 8).eq_iff, BitVec.xor_left_inj]

theorem ckstep_right_inj {c : Half} {a b : Byte} : ckstep c a = ckstep c b ↔ a = b := by
  rw [ckstep, ckstep, (ckShifts_injective 8).eq_iff, BitVec.xor_right_inj]
  refine ⟨fun h => ?_, fun h => h ▸ rfl⟩
  apply BitVec.eq_of_getLsbD_eq
  intro i hi
  have htop : 8 + i < 16 ∧ i < 16 := by omega
  simpa [htop, hi] using congrArg (·.getLsbD (8 + i)) h

theorem ckRun_left_inj {c d : Half} (bs : List Byte) : ckRun c bs = ckRun d bs ↔ c = d := by
  induction bs generalizing c d with
  | nil => rfl
  | cons b bs ih => rw [ckRun, ckRun, ih, ckstep_left_inj]

/-- A flipped bit changes the register after its byte, and no later byte hides that. -/
theorem ckRun_flipBit_ne (c : Half) {bs : List Byte} {i j : Nat} (hi : i < bs.length) (hj : j < 8) :
    ckRun c (flipBit bs i j) ≠ ckRun c bs := by
  induction bs generalizing c i with
  | nil => simp at hi
  | cons b bs ih =>
    cases i with
    | zero =>
      have hne : b ^^^ 1#8 <<< j ≠ b := by
        intro h
        simpa [hj] using congrArg (·.getLsbD j) h
      simpa [flipBit, ckRun, ckRun_left_inj, ckstep_right_inj] using hne
    | succ i => exact ih (ckstep c b) (Nat.lt_of_succ_lt_succ hi)

/-! ### The residue (R123) -/

/-- A byte in the low half of the register reaches the top in eight shifts, and no shift moves a 1 out. -/
theorem ckShifts_eight_low (b : Byte) : ckShifts 8 (b.setWidth 16) = b.setWidth 16 <<< 8 := by
  simp [ckShifts, ckShift]

/-- A register that is fed itself, high byte first, is 0. -/
theorem ckRun_be16_self (a b : Byte) : ckRun (be16 a b) [a, b] = 0 := by
  have hlow : be16 a b ^^^ a.setWidth 16 <<< 8 = b.setWidth 16 := by
    apply BitVec.eq_of_getLsbD_eq
    intro i hi
    interval_cases i <;> simp [be16]
  rw [ckRun, ckstep, hlow, ckShifts_eight_low, ckRun, ckstep, BitVec.xor_self]
  rfl

/-- The check of two checksum bytes passes exactly when the run over span and bytes ends at 0. -/
theorem ckRun_append_eq_zero_iff (c : Half) (bs : List Byte) (a b : Byte) :
    ckRun c (bs ++ [a, b]) = 0 ↔ ckRun c bs = be16 a b := by
  rw [ckRun_append, ← ckRun_be16_self a b, ckRun_left_inj]

theorem ck_sealed (bs : List Byte) : ck (sealed bs) = 0 := by
  rw [ck_eq_ckRun, sealed, ckRun_append_eq_zero_iff, be16_hi8_lo8, ck_eq_ckRun]

/-- Settles O7: the two bytes are those of the run's own value. -/
theorem sealedSpanHasResidueZero : Obligations.SealedSpanHasResidueZero := ck_sealed

/-- A span that ends in two checksum bytes, cut before them. -/
theorem take_append_two {f : List Byte} {n : Nat} (h : f.length = n + 2) :
    f.take n ++ [f.getD n 0, f.getD (n + 1) 0] = f := by
  have hdrop : f.drop n = [f.getD n 0, f.getD (n + 1) 0] := by
    rw [List.drop_eq_getElem_cons (by omega), List.drop_eq_getElem_cons (by omega), List.drop_of_length_le (by omega),
      List.getD_eq_getElem, List.getD_eq_getElem]
  rw [← hdrop, List.take_append_drop]

/-- Settles O9: the flipped span's residue is not that of the sealed span, which is 0. -/
theorem singleBitFlipFailsTheCheck : Obligations.SingleBitFlipFailsTheCheck := by
  intro bs i j hi hj f hcheck
  have hlen : f.length = bs.length + 2 := by simp [f, flipBit]
  have hf : ckRun Config.ckInitValue f = 0 := by
    rwa [ck_eq_ckRun, ← ckRun_append_eq_zero_iff, take_append_two hlen] at hcheck
  have hsealed : ckRun Config.ckInitValue (sealed bs) = 0 := by rw [← ck_eq_ckRun, ck_sealed]
  exact ckRun_flipBit_ne Config.ckInitValue (by simpa using hi) hj (hf.trans hsealed.symm)

/-! ### The remainder over GF(2) (R122) -/

section
open Polynomial

/-- The polynomial of a bit string: bit `i` is the coefficient of `x^i`. -/
noncomputable def bitsPoly {w : Nat} (v : BitVec w) : (ZMod 2)[X] :=
  ∑ i ∈ Finset.range w, if v.getLsbD i then X ^ i else 0

/-- `M(x)`, the first byte at the top. -/
noncomputable def messagePoly (bs : List Byte) : (ZMod 2)[X] :=
  ∑ k ∈ Finset.range bs.length, ∑ i ∈ Finset.range 8,
    if (bs.getD k 0).getLsbD i then X ^ (8 * (bs.length - 1 - k) + i) else 0

/-- `P(x)`. -/
noncomputable def ckDivisor : (ZMod 2)[X] := X ^ 16 + X ^ 12 + X ^ 5 + 1

theorem ckDivisor_degree : ckDivisor.degree = 16 := by
  unfold ckDivisor
  compute_degree!

theorem ckDivisor_monic : ckDivisor.Monic := by
  unfold ckDivisor
  monicity!

theorem bitsPoly_xor {w : Nat} (u v : BitVec w) : bitsPoly (u ^^^ v) = bitsPoly u + bitsPoly v := by
  rw [bitsPoly, bitsPoly, bitsPoly, ← Finset.sum_add_distrib]
  refine Finset.sum_congr rfl fun i _ => ?_
  rw [BitVec.getLsbD_xor]
  cases u.getLsbD i <;> cases v.getLsbD i <;> simp [CharTwo.add_self_eq_zero]

theorem bitsPoly_degree_lt {w : Nat} (v : BitVec w) : (bitsPoly v).degree < w := by
  rw [← mem_degreeLT]
  refine Submodule.sum_mem _ fun i hi => ?_
  split
  · rw [mem_degreeLT, degree_X_pow]
    exact_mod_cast Finset.mem_range.mp hi
  · exact Submodule.zero_mem _

/-- A byte at the top of the register. -/
theorem bitsPoly_byte_shiftLeft (b : Byte) : bitsPoly (b.setWidth 16 <<< 8) = X ^ 8 * bitsPoly b := by
  rw [bitsPoly, bitsPoly, Finset.sum_range_add _ 8 8, Finset.mul_sum, Finset.sum_eq_zero, zero_add]
  · refine Finset.sum_congr rfl fun i hi => ?_
    have htop : 8 + i < 16 ∧ i < 16 := by have := Finset.mem_range.mp hi; omega
    simp [pow_add, htop]
  · intro i hi
    simp [Finset.mem_range.mp hi]

theorem bitsPoly_ckPoly : bitsPoly Config.ckPoly = 1 + X ^ 5 + X ^ 12 := by
  simp [bitsPoly, Finset.sum_range_succ, Config.ckPoly]

/-- `P(x)` is `x^16` and the bits of `CK_POLY` (00_scope.md R7). -/
theorem ckDivisor_eq : ckDivisor = X ^ 16 + bitsPoly Config.ckPoly := by
  rw [ckDivisor, bitsPoly_ckPoly]
  ring

/-- A shift to the left multiplies by `x`, up to the bit that it moves out. -/
theorem X_mul_bitsPoly (r : Half) :
    X * bitsPoly r = bitsPoly (r <<< 1) + if r.getLsbD 15 then X ^ 16 else 0 := by
  have hlow : ∀ i ∈ Finset.range 15, (X * if r.getLsbD i then X ^ i else 0 : (ZMod 2)[X]) =
      if (r <<< 1).getLsbD (i + 1) then X ^ (i + 1) else 0 := by
    intro i hi
    have hi16 : i + 1 < 16 ∧ i < 16 := by have := Finset.mem_range.mp hi; omega
    have hbit : (r <<< 1).getLsbD (i + 1) = r.getLsbD i := by simp [hi16]
    rw [hbit, mul_ite, mul_zero, pow_succ']
  rw [bitsPoly, bitsPoly, Finset.mul_sum, Finset.sum_range_succ, Finset.sum_range_succ' _ 15, Finset.sum_congr rfl hlow]
  simp [pow_succ']

/-- One shift of the register multiplies by `x`, less `P(x)` when a 1 moves out. -/
theorem X_mul_bitsPoly_eq_ckShift (r : Half) :
    X * bitsPoly r = bitsPoly (ckShift r) + if r.getLsbD 15 then ckDivisor else 0 := by
  rw [X_mul_bitsPoly, ckShift]
  split
  · rw [bitsPoly_xor, ckDivisor_eq]
    linear_combination -CharTwo.add_self_eq_zero (bitsPoly Config.ckPoly)
  · rfl

/-- Modulo `P(x)` one shift is a multiplication by `x`. -/
theorem mk_bitsPoly_ckShift (r : Half) :
    AdjoinRoot.mk ckDivisor (bitsPoly (ckShift r)) = AdjoinRoot.mk ckDivisor (X * bitsPoly r) := by
  rw [X_mul_bitsPoly_eq_ckShift, map_add]
  split
  · rw [AdjoinRoot.mk_self, add_zero]
  · rw [map_zero, add_zero]

theorem mk_bitsPoly_ckShifts (k : Nat) (r : Half) :
    AdjoinRoot.mk ckDivisor (bitsPoly (ckShifts k r)) = AdjoinRoot.mk ckDivisor (X ^ k * bitsPoly r) := by
  induction k generalizing r with
  | zero => simp [ckShifts]
  | succ k ih => rw [ckShifts, ih, map_mul, mk_bitsPoly_ckShift, ← map_mul, pow_succ, mul_assoc]

theorem mk_bitsPoly_ckstep (c : Half) (b : Byte) :
    AdjoinRoot.mk ckDivisor (bitsPoly (ckstep c b)) =
      AdjoinRoot.mk ckDivisor (X ^ 8 * bitsPoly c + X ^ 16 * bitsPoly b) := by
  rw [ckstep, mk_bitsPoly_ckShifts, bitsPoly_xor, bitsPoly_byte_shiftLeft]
  refine congrArg _ ?_
  ring

theorem messagePoly_cons (b : Byte) (bs : List Byte) :
    messagePoly (b :: bs) = messagePoly bs + bitsPoly b * X ^ (8 * bs.length) := by
  rw [messagePoly, List.length_cons, Finset.sum_range_succ']
  refine congrArg₂ (· + ·) ?_ ?_
  · refine Finset.sum_congr rfl fun k _ => ?_
    rw [show bs.length + 1 - 1 - (k + 1) = bs.length - 1 - k by omega]
    rfl
  · rw [bitsPoly, Finset.sum_mul]
    refine Finset.sum_congr rfl fun i _ => ?_
    simp [pow_add, mul_comm]

/-- A run from `c` over `n` bytes is `M(x) x^16 + C(x) x^(8n)` modulo `P(x)`. -/
theorem mk_bitsPoly_ckRun (c : Half) (bs : List Byte) :
    AdjoinRoot.mk ckDivisor (bitsPoly (ckRun c bs)) =
      AdjoinRoot.mk ckDivisor (messagePoly bs * X ^ 16 + bitsPoly c * X ^ (8 * bs.length)) := by
  induction bs generalizing c with
  | nil => simp [ckRun, messagePoly]
  | cons b bs ih =>
    rw [ckRun, ih, map_add, map_mul _ (bitsPoly _), mk_bitsPoly_ckstep, ← map_mul, ← map_add, messagePoly_cons,
      List.length_cons]
    refine congrArg _ ?_
    ring

/-- Settles O6: the register has degree below 16, so it is the remainder of what it is congruent to. -/
theorem checksumIsThePolynomialRemainder : Obligations.ChecksumIsThePolynomialRemainder := by
  intro bs
  have hsmall : bitsPoly (ck bs) %ₘ ckDivisor = bitsPoly (ck bs) := by
    rw [modByMonic_eq_self_iff ckDivisor_monic, ckDivisor_degree]
    exact bitsPoly_degree_lt (ck bs)
  have hcong := mk_bitsPoly_ckRun Config.ckInitValue bs
  rw [← ck_eq_ckRun, AdjoinRoot.mk_eq_mk] at hcong
  exact hsmall.symm.trans (modByMonic_eq_of_dvd_sub ckDivisor_monic hcong)

end

/-! ### The commands of the checksum unit (R124, R125) -/

theorem exec_ckInit (s : State) : exec .ckInit s = .next (s.withCkAcc Config.ckInitValue) := rfl

theorem exec_ckFeed (b : Byte) (s : State) : exec (.ckFeed b) s = .next (s.withCkAcc (ckstep s.ckAcc b)) := rfl

/-- `CK_XOROUT` is 0, so `CKSUM` reads the accumulator as it stands (10_state.md R27). -/
theorem readReg_cksum (s : State) : readReg .cksum s = s.ckAcc.setWidth 32 := by
  simp [readReg, cksumWord, Config.ckXorOut]

theorem decode_of_opField_ckInit {w : Word} (h : opField w = 0x01) : decode w = .ok .ckInit := by simp [decode, h]

theorem decode_of_opField_ckFeed {w : Word} (h : opField w = 0x02) : decode w = .ok (.ckFeed (aField w)) := by
  simp [decode, h]

/-- Settles O10: the word decodes to the command, whose meaning is one named update. -/
theorem ckInitLoadsTheInitialValue : Obligations.CkInitLoadsTheInitialValue := by
  refine ⟨exec_ckInit, fun s => readReg_cksum _, fun s w ops ts h hop => ?_⟩
  rw [step_commandDue h, commandWrite, decode_of_opField_ckInit hop]
  rfl

/-- Settles O11: the word decodes to the command on its field `A`, whose meaning is one named update. -/
theorem ckFeedAdvancesTheAccumulator : Obligations.CkFeedAdvancesTheAccumulator := by
  refine ⟨fun s b => exec_ckFeed b s, readReg_cksum, fun s w ops ts h hop => ?_⟩
  rw [step_commandDue h, commandWrite, decode_of_opField_ckFeed hop]
  rfl

/-- One `CK_FEED` per byte runs the checksum over the bytes from the accumulator on. -/
theorem runCommands_ckFeeds (bs : List Byte) (s : State) :
    runCommands (bs.map .ckFeed) s = .next (s.withCkAcc (ckRun s.ckAcc bs)) := by
  induction bs generalizing s with
  | nil => rfl
  | cons b bs ih =>
    rw [List.map_cons, runCommands, exec_ckFeed]
    exact ih (s.withCkAcc (ckstep s.ckAcc b))

/-- Settles O12: the run of the `CK_FEED`s starts from the value that `CK_INIT` loads. -/
theorem feedingASpanGivesItsChecksum : Obligations.FeedingASpanGivesItsChecksum := by
  intro bs s
  rw [runCommands, exec_ckInit, ck_eq_ckRun]
  exact runCommands_ckFeeds bs (s.withCkAcc Config.ckInitValue)

end Sys2Proof.Machine
end

section
/-! PROOFS. The framer: what `TX_FRAME` sends, reads and leaves, the sequence numbers, the two sealed spans of a frame,
and the round trip through a hunting synchronizer. Rules of 41_framer.md are cited by their number alone. -/

namespace Sys2Proof.Machine

/-! ### The command (R140, R142) -/

/-- `TX_FRAME` on a payload that fits: the transmit stream and `ADDR.SEQ`, nothing else. -/
theorem exec_txFrame_of_le {n : Byte} (h : n.toNat ≤ 254) (t : Byte) (s : State) :
    exec (.txFrame t n) s = .next ((s.withTxs (s.txs ++ frameOf s.addr t n (txPayload s n))).withAddr
      { s.addr with seq := if s.ctrl.seqInc then s.addr.seq + 1 else s.addr.seq }) := by
  have hn : ¬ n.toNat > Config.maxPayload := by simpa [Config.maxPayload] using h
  rw [exec, execTxFrame, if_neg hn, advanceSeq_eq]
  rfl

/-- `TX_FRAME` on a payload that does not fit is refused before any byte is sent. -/
theorem exec_txFrame_of_gt {n : Byte} (h : ¬ n.toNat ≤ 254) (t : Byte) (s : State) :
    exec (.txFrame t n) s = .next (raiseCmdError .payloadTooLarge s) :=
  if_pos (Nat.lt_of_not_le h)

theorem decode_of_opField_txFrame {w : Word} (h : opField w = 0x10) :
    decode w = .ok (.txFrame (aField w) (bField w)) := by
  simp [decode, h]

/-- A word with `OP` = `0x10` that is due is `TX_FRAME` on its fields `A` and `B`. -/
theorem step_txFrameDue {s : State} {w : Word} {ops : List HostOp} {ts : List Turn} (h : CommandDue s w ops ts)
    (hop : opField w = 0x10) : step s = exec (.txFrame (aField w) (bField w)) (answered s .done ops ts) := by
  rw [step_commandDue h, commandWrite, decode_of_opField_txFrame hop]

/-- Settles O13: the frame of the statement is the model's own, written out. -/
theorem txFrameAppendsTheWholeFrame : Obligations.TxFrameAppendsTheWholeFrame := by
  refine ⟨fun s t n => ?_, fun s w ops ts h hop => step_txFrameDue h hop⟩
  by_cases hn : n.toNat ≤ 254
  · simp only [if_pos hn, List.append_assoc]
    exact exec_txFrame_of_le hn t s
  · simp only [if_neg hn]
    exact exec_txFrame_of_gt hn t s

/-- Settles O14: the word is `TX_FRAME` with field `B` as its payload length. -/
theorem payloadOf255IsRejected : Obligations.PayloadOf255IsRejected := by
  intro s w ops ts h hop hb
  rw [step_txFrameDue h hop, bField, hb]
  exact exec_txFrame_of_gt (by decide) _ _

/-! ### What is read (R140) -/

/-- Settles O17: both outcomes read the four pieces of state alone. -/
theorem txFrameReadsOnlyItsPayload : Obligations.TxFrameReadsOnlyItsPayload := by
  intro s s' u u' t n hc ha ht hm h h'
  have hp : txPayload s' n = txPayload s n :=
    List.map_congr_left fun i hi => hm i (List.mem_range.mp hi)
  by_cases hn : n.toNat ≤ 254
  · rw [exec_txFrame_of_le hn] at h h'
    obtain rfl := Host.Outcome.next.inj h
    obtain rfl := Host.Outcome.next.inj h'
    simp [hc, ha, ht, hp]
  · rw [exec_txFrame_of_gt hn] at h h'
    obtain rfl := Host.Outcome.next.inj h
    obtain rfl := Host.Outcome.next.inj h'
    exact ⟨ht, ha⟩

/-! ### Sequence numbers (R141) -/

/-- The sequence number of the `k`-th frame sent from `s` on, counted from 0. -/
def seqAt (s : State) (k : Nat) : Byte := if s.ctrl.seqInc then s.addr.seq + BitVec.ofNat 8 k else s.addr.seq

@[simp] theorem seqAt_zero (s : State) : seqAt s 0 = s.addr.seq := by simp [seqAt]

/-- The frames that the commands `cmds` append, one after another. -/
def framesOf (s : State) (cmds : List (Byte × Byte)) : List Byte :=
  cmds.zipIdx.flatMap fun c => frameOf { s.addr with seq := seqAt s c.2 } c.1.1 c.1.2 (txPayload s c.1.2)

/-- The state after `k` frames whose bytes are `bs`. -/
def State.afterFrames (s : State) (bs : List Byte) (k : Nat) : State :=
  (s.withTxs (s.txs ++ bs)).withAddr { s.addr with seq := seqAt s k }

/-- After `j` frames the numbers go on from the `j`-th. -/
@[simp] theorem seqAt_afterFrames (s : State) (bs : List Byte) (j k : Nat) :
    seqAt (s.afterFrames bs j) k = seqAt s (k + j) := by
  simp only [seqAt, State.afterFrames, withAddr_ctrl, withTxs_ctrl, withAddr_addr]
  split
  · rw [BitVec.add_assoc, ← BitVec.ofNat_add, Nat.add_comm j k]
  · rfl

theorem afterFrames_nil (s : State) : s.afterFrames [] 0 = s := by
  rw [State.afterFrames, List.append_nil, seqAt_zero]
  rfl

/-- Frames after frames are the frames together. -/
theorem afterFrames_afterFrames (s : State) (bs bs' : List Byte) (j k : Nat) :
    (s.afterFrames bs j).afterFrames bs' k = s.afterFrames (bs ++ bs') (k + j) := by
  rw [State.afterFrames, seqAt_afterFrames, State.afterFrames, State.afterFrames, ← List.append_assoc]
  rfl

/-- The first command's frame carries number 0; the others' follow from the state that it leaves. -/
theorem framesOf_cons (s : State) (t n : Byte) (cmds : List (Byte × Byte)) (bs : List Byte) :
    framesOf s ((t, n) :: cmds) = frameOf s.addr t n (txPayload s n) ++ framesOf (s.afterFrames bs 1) cmds := by
  simp only [framesOf, List.zipIdx_cons', List.flatMap_cons, List.flatMap_map, seqAt_afterFrames, seqAt_zero]
  rfl

/-- An accepted `TX_FRAME` is one frame. -/
theorem exec_txFrame_eq_afterFrames {n : Byte} (h : n.toNat ≤ 254) (t : Byte) (s : State) :
    exec (.txFrame t n) s = .next (s.afterFrames (frameOf s.addr t n (txPayload s n)) 1) :=
  exec_txFrame_of_le h t s

/-- A sequence of accepted `TX_FRAME`s is its frames, numbered from the first sequence number on. -/
theorem runCommands_txFrames (cmds : List (Byte × Byte)) (s : State) (h : ∀ c ∈ cmds, c.2.toNat ≤ 254) :
    runCommands (cmds.map fun c => .txFrame c.1 c.2) s = .next (s.afterFrames (framesOf s cmds) cmds.length) := by
  induction cmds generalizing s with
  | nil => exact congrArg _ (afterFrames_nil s).symm
  | cons c cmds ih =>
    obtain ⟨t, n⟩ := c
    obtain ⟨hn, hcmds⟩ := List.forall_mem_cons.mp h
    rw [List.map_cons, runCommands, exec_txFrame_eq_afterFrames hn]
    simp only
    rw [ih _ hcmds, afterFrames_afterFrames, ← framesOf_cons, List.length_cons]

/-- Settles O16, by induction on the commands. -/
theorem sequenceNumbersFollowThePolicy : Obligations.SequenceNumbersFollowThePolicy := runCommands_txFrames

/-! ### The two sealed spans (R145) -/

/-- A sealed span begins with the span. -/
theorem take_sealed (bs : List Byte) : (sealed bs).take bs.length = bs := List.take_left

/-- A sealed span ends with the checksum of the span, high byte first (00_scope.md R12). -/
theorem be16_sealed (bs : List Byte) :
    be16 ((sealed bs).getD bs.length 0) ((sealed bs).getD (bs.length + 1) 0) = ck bs := by
  rw [sealed, List.getD_append_right _ _ _ _ le_rfl, List.getD_append_right _ _ _ _ (Nat.le_add_right _ _),
    Nat.sub_self, Nat.add_sub_cancel_left]
  exact be16_hi8_lo8 _

section
variable (a : Addr) (t n : Byte) (ps : List Byte)

/-- The bytes of a frame after its eight header bytes are its sealed body (30_encoding.md R93). -/
theorem drop_frameOf : (frameOf a t n ps).drop 8 = sealed (t :: ps) := rfl

theorem take_drop_frameOf : ((frameOf a t n ps).take (ps.length + 9)).drop 8 = t :: ps := by
  rw [List.drop_take, drop_frameOf]
  exact take_sealed (t :: ps)

end

@[simp] theorem txPayload_length (s : State) (n : Byte) : (txPayload s n).length = n.toNat := memRun_length _ _ _

/-- A payload of at most 254 bytes and the type byte fit the `bodyLen` byte (R142). -/
theorem bodyLen_toNat {n : Byte} (h : n.toNat ≤ 254) : (n + 1).toNat = n.toNat + 1 := by bv_omega

/-- What an accepted `TX_FRAME` appends. -/
theorem txFrame_appends {s u : State} {t n : Byte} (hn : n.toNat ≤ 254) (h : exec (.txFrame t n) s = .next u) :
    u.txs = s.txs ++ frameOf s.addr t n (txPayload s n) := by
  rw [exec_txFrame_of_le hn] at h
  obtain rfl := Host.Outcome.next.inj h
  rfl

/-- Settles O15: the header is sealed over its six field bytes, the body over the type byte and the payload. -/
theorem everySentFrameKeepsTheWireFormat : Obligations.EverySentFrameKeepsTheWireFormat := by
  intro s u t n hn h
  refine ⟨_, txFrame_appends hn h, by simp, rfl, rfl, ?_, be16_sealed (headerFields s.addr n), ?_⟩
  · rw [Nat.add_comm]
    exact bodyLen_toNat hn
  · have hspan := take_drop_frameOf s.addr t n (txPayload s n)
    have hbody := be16_sealed (t :: txPayload s n)
    rw [List.length_cons, txPayload_length] at hbody
    rw [txPayload_length] at hspan
    rw [hspan]
    exact hbody

/-! ### Runs of the synchronizer's turns (42_synchronizer.md R161) -/

/-- One more step after `k`. -/
theorem runSteps_succ_of_next {k : Nat} {s u : State} (h : runSteps k s = .next u) : runSteps (k + 1) s = step u := by
  induction k generalizing s with
  | zero =>
    obtain rfl := Host.Outcome.next.inj h
    rw [runSteps]
    cases step s <;> rfl
  | succ k ih =>
    rw [runSteps] at h ⊢
    cases hs : step s with
    | next t =>
      rw [hs] at h
      exact ih h
    | fault r => simp [hs] at h
    | refused r => simp [hs] at h

/-- A synchronizer's turn that is due takes the oldest byte when the synchronizer is ready. -/
theorem step_takesByte {s : State} {b : Byte} {bs : List Byte} {ts : List Turn} (hd : SyncDue s ts)
    (hr : s.rxs = b :: bs) (hy : rxReady s = true) : step s = .next (rxByte b ((s.withSchedule ts).withRxs bs)) := by
  obtain ⟨he, -⟩ | ⟨-, c, cs, hc, e⟩ := syncTurn_cases (s.withSchedule ts)
  · have he : rxEnabled s = false := he
    simp [rxEnabled, hr, hy] at he
  · obtain ⟨rfl, rfl⟩ := List.cons.inj (hr.symm.trans hc)
    rw [step_syncDue hd, e]

/-! ### A byte taken, state by state -/

section
variable {s : State} {b : Byte}

/-- A byte that is no sentinel starts a header (42_synchronizer.md R164). -/
theorem rxByte_startsHeader (hst : s.sync.state = .hunt) (hb : b ≠ Config.syncByte) :
    rxByte b s = s.withSync { s.sync with state := .header, hb := [b] } := by
  simp only [rxByte, hst]
  exact if_neg hb

/-- A header byte before the eighth is collected (42_synchronizer.md R165). -/
theorem rxByte_collectsHeader (hst : s.sync.state = .header) (hl : (s.sync.hb ++ [b]).length ≠ 8) :
    rxByte b s = s.withSync { s.sync with hb := s.sync.hb ++ [b] } := by
  simp only [rxByte, hst, headerByte]
  exact if_neg hl

/-- The eighth byte of a header that passes its check starts the body (42_synchronizer.md R166, R167). -/
theorem rxByte_startsBody (hst : s.sync.state = .header) (hl : (s.sync.hb ++ [b]).length = 8)
    (hv : headerValid (s.sync.hb ++ [b]) = true) : rxByte b s =
    s.withSync { state := .body, hb := s.sync.hb ++ [b], bb := [], blen := (s.sync.hb ++ [b]).getD 5 0 } := by
  simp only [rxByte, hst]
  exact (if_pos hl).trans (if_pos hv)

/-- A body byte before the last is collected (42_synchronizer.md R169). -/
theorem rxByte_collectsBody (hst : s.sync.state = .body) (hl : (s.sync.bb ++ [b]).length ≠ s.sync.blen.toNat + 2) :
    rxByte b s = s.withSync { s.sync with bb := s.sync.bb ++ [b] } := by
  simp only [rxByte, hst, bodyByte]
  exact if_neg hl

/-- The last byte of a body that passes its check and is not empty delivers the frame (42_synchronizer.md R172). -/
theorem rxByte_delivers (hst : s.sync.state = .body) (hl : (s.sync.bb ++ [b]).length = s.sync.blen.toNat + 2)
    (hc : ck ((s.sync.bb ++ [b]).take s.sync.blen.toNat) =
      be16 ((s.sync.bb ++ [b]).getD s.sync.blen.toNat 0) ((s.sync.bb ++ [b]).getD (s.sync.blen.toNat + 1) 0))
    (hn : s.sync.blen.toNat ≠ 0) : rxByte b s = toHunt (deliver (s.sync.bb ++ [b]) s) := by
  simp only [rxByte, hst]
  exact (if_pos hl).trans ((if_neg (not_not_intro hc)).trans (if_neg hn))

end

/-! ### The beginning of a frame (42_synchronizer.md R163 to R169) -/

/-- `p` can be the beginning of a frame that is not complete: its first byte is no sentinel, a complete header passes
its check, and the last byte of the body is missing. -/
def FrameBegins (p : List Byte) : Prop :=
  (p ≠ [] → p.getD 0 0 ≠ Config.syncByte) ∧
  (8 ≤ p.length → headerValid (p.take 8) = true ∧ p.length < (p.getD 5 0).toNat + 10)

/-- What the synchronizer holds of the bytes `p` that it has taken since it hunted as `y`. -/
def Sync.collecting (y : Sync) (p : List Byte) : Sync :=
  if p.length = 0 then y
  else if p.length < 8 then { y with state := .header, hb := p }
  else { state := .body, hb := p.take 8, bb := p.drop 8, blen := p.getD 5 0 }

/-- `s` after the synchronizer has taken `p`, with `rest` still to come. -/
def State.collecting (s : State) (p rest : List Byte) (ts : List Turn) : State :=
  ((s.withSchedule ts).withRxs rest).withSync (s.sync.collecting p)

theorem getD_take {p : List Byte} {i k : Nat} (h : i < k) : (p.take k).getD i 0 = p.getD i 0 := by
  simp [List.getD_eq_getElem?_getD, List.getElem?_take_of_lt h]

theorem FrameBegins.take {p : List Byte} (h : FrameBegins p) (k : Nat) : FrameBegins (p.take k) := by
  obtain ⟨hstart, hheader⟩ := h
  constructor
  · intro hne
    obtain ⟨hk, hp⟩ : k ≠ 0 ∧ p ≠ [] := by simpa [List.take_eq_nil_iff] using hne
    rw [getD_take (by omega)]
    exact hstart hp
  · intro h8
    rw [List.length_take] at h8 ⊢
    obtain ⟨hv, hl⟩ := hheader (by omega)
    rw [List.take_take, Nat.min_eq_left (by omega), getD_take (by omega)]
    exact ⟨hv, by omega⟩

theorem Sync.collecting_header {y : Sync} {p : List Byte} (h0 : p ≠ []) (h8 : p.length < 8) :
    y.collecting p = { y with state := .header, hb := p } := by
  rw [Sync.collecting, if_neg (mt List.length_eq_zero_iff.mp h0), if_pos h8]

theorem Sync.collecting_body {y : Sync} {p : List Byte} (h8 : 8 ≤ p.length) :
    y.collecting p = { state := .body, hb := p.take 8, bb := p.drop 8, blen := p.getD 5 0 } := by
  rw [Sync.collecting, if_neg (by omega), if_neg (by omega)]

theorem collecting_nil {s : State} {rest : List Byte} {ts : List Turn} (hr : s.rxs = rest) (hs : s.schedule = ts) :
    s.collecting [] rest ts = s := by
  subst hr hs
  rfl

/-- Until the frame is complete the synchronizer may take the next byte. -/
theorem rxReady_collecting {s : State} (hs : ReadyToHunt s) (p rest : List Byte) (ts : List Turn) :
    rxReady (s.collecting p rest ts) = true := by
  obtain ⟨hst, hen, hv⟩ := hs
  by_cases h0 : p = []
  · subst h0
    simp [rxReady, State.collecting, hen, hv]
  · by_cases h8 : p.length < 8
    · simp [rxReady, State.collecting, Sync.collecting_header h0 h8]
    · simp [rxReady, State.collecting, Sync.collecting_body (Nat.le_of_not_lt h8)]

/-- A byte that does not complete the frame is collected: the first, one of a header, the header's last, one of a
body. -/
theorem rxByte_collecting {s : State} (hs : ReadyToHunt s) {p : List Byte} {b : Byte} (h : FrameBegins (p ++ [b]))
    (rest : List Byte) (ts : List Turn) :
    rxByte b (s.collecting p rest ts) = s.collecting (p ++ [b]) rest ts := by
  obtain ⟨hstart, hheader⟩ := h
  have hlen : (p ++ [b]).length = p.length + 1 := List.length_append
  have hne : p ++ [b] ≠ [] := by simp
  obtain rfl | ⟨h0, h7⟩ | ⟨h0, h7⟩ | h8 :
      p = [] ∨ (p ≠ [] ∧ p.length < 7) ∨ (p ≠ [] ∧ p.length = 7) ∨ 8 ≤ p.length := by
    rw [ne_eq, ← List.length_eq_zero_iff]
    omega
  · exact rxByte_startsHeader hs.1 (hstart hne)
  · rw [State.collecting, State.collecting, Sync.collecting_header h0 (by omega),
      Sync.collecting_header hne (by omega)]
    exact rxByte_collectsHeader rfl (show (p ++ [b]).length ≠ 8 by omega)
  · have h8 : (p ++ [b]).length = 8 := by omega
    obtain ⟨hv, -⟩ := hheader h8.ge
    rw [List.take_of_length_le h8.le] at hv
    rw [State.collecting, State.collecting, Sync.collecting_header h0 (by omega), Sync.collecting_body h8.ge,
      List.take_of_length_le h8.le, List.drop_of_length_le h8.le]
    exact rxByte_startsBody rfl h8 hv
  · obtain ⟨-, hl⟩ := hheader (by omega)
    rw [List.getD_append _ _ _ _ (by omega)] at hl
    rw [State.collecting, State.collecting, Sync.collecting_body h8, Sync.collecting_body (by omega),
      List.take_append_of_le_length h8, List.drop_append_of_le_length h8, List.getD_append _ _ _ _ (by omega)]
    refine rxByte_collectsBody rfl (show (p.drop 8 ++ [b]).length ≠ (p.getD 5 0).toNat + 2 from ?_)
    rw [List.length_append, List.length_drop, List.length_singleton]
    omega

/-- The turn after the bytes `p` takes the next byte. -/
theorem runSteps_nextByte {s : State} (hs : ReadyToHunt s) {k : Nat} {p rest : List Byte} {b : Byte} {ts : List Turn}
    (h : runSteps k s = .next (s.collecting p (b :: rest) (.sync :: ts))) :
    runSteps (k + 1) s = .next (rxByte b (s.collecting p rest ts)) := by
  rw [runSteps_succ_of_next h]
  exact step_takesByte rfl rfl (rxReady_collecting hs _ _ _)

/-- Turn by turn the bytes of a frame that is not complete are collected, and nothing else changes. -/
theorem runSteps_collecting {s : State} (hs : ReadyToHunt s) (p : List Byte) :
    ∀ (rest : List Byte) (ts : List Turn), FrameBegins p → s.rxs = p ++ rest → SyncTurnsDue s p.length ts →
    runSteps p.length s = .next (s.collecting p rest ts) := by
  induction p using List.reverseRecOn with
  | nil =>
    intro rest ts _ hr hd
    exact congrArg _ (collecting_nil hr hd).symm
  | append_singleton p b ih =>
    intro rest ts hf hr hd
    have hp : FrameBegins p := by simpa using hf.take p.length
    rw [List.append_assoc, List.singleton_append] at hr
    rw [SyncTurnsDue, List.length_append, List.length_singleton, List.replicate_succ', List.append_assoc,
      List.singleton_append] at hd
    rw [List.length_append, List.length_singleton, runSteps_nextByte hs (ih _ _ hp hr hd), rxByte_collecting hs hf]

/-- The first `k` bytes of such a beginning are collected in the same way. -/
theorem runSteps_collecting_take {s : State} (hs : ReadyToHunt s) {p rest : List Byte} {m : Nat} {ts : List Turn}
    (hf : FrameBegins p) (hr : s.rxs = p ++ rest) (hd : SyncTurnsDue s m ts) {k : Nat} (hk : k ≤ p.length)
    (hm : k ≤ m) :
    runSteps k s = .next (s.collecting (p.take k) (p.drop k ++ rest) (List.replicate (m - k) .sync ++ ts)) := by
  have hlen : (p.take k).length = k := List.length_take_of_le hk
  have h := runSteps_collecting hs (p.take k) (p.drop k ++ rest) (List.replicate (m - k) .sync ++ ts) (hf.take k)
    (by rw [← List.append_assoc, List.take_append_drop, hr])
    (by rw [SyncTurnsDue, hlen, ← List.append_assoc, ← List.replicate_add, Nat.add_sub_cancel' hm]; exact hd)
  rwa [hlen] at h

/-! ### The round trip (R146) -/

/-- A sealed span of six bytes passes the header check (42_synchronizer.md R166). -/
theorem headerValid_sealed {bs : List Byte} (h : bs.length = 6) : headerValid (sealed bs) = true := by
  have ht := take_sealed bs
  have hc := be16_sealed bs
  rw [h] at ht hc
  rw [headerValid, ht, hc]
  exact beq_self_eq_true _

/-- The last byte of a sealed body that is not empty delivers the frame (42_synchronizer.md R172). -/
theorem rxByte_delivers_sealed {s : State} {b : Byte} {bs : List Byte} (hst : s.sync.state = .body)
    (hbb : s.sync.bb ++ [b] = sealed bs) (hl : s.sync.blen.toNat = bs.length) (hne : bs ≠ []) :
    rxByte b s = toHunt (deliver (sealed bs) s) := by
  rw [← hbb]
  apply rxByte_delivers hst
  · rw [hbb, hl, sealed_length]
  · rw [hbb, hl, take_sealed, be16_sealed]
  · rwa [hl, ne_eq, List.length_eq_zero_iff]

section
variable (a : Addr) (t n : Byte) (ps : List Byte)

/-- A frame without its last byte. -/
def frameHead : List Byte := sealed (headerFields a n) ++ (t :: ps ++ [hi8 (ck (t :: ps))])

theorem frameOf_eq_frameHead : frameOf a t n ps = frameHead a t n ps ++ [lo8 (ck (t :: ps))] := by
  simp [frameOf, frameHead, sealed]

@[simp] theorem frameHead_length : (frameHead a t n ps).length = ps.length + 10 := by
  simp [frameHead, headerFields]
  omega

variable {n ps}

/-- A frame without its last byte begins a frame: it starts with `0x4B`, and its header is sealed. -/
theorem frameBegins_frameHead (hn : n.toNat ≤ 254) (hps : ps.length = n.toNat) :
    FrameBegins (frameHead a t n ps) := by
  refine ⟨fun _ => ?_, fun _ => ⟨headerValid_sealed (bs := headerFields a n) rfl, ?_⟩⟩
  · show Config.sof ≠ Config.syncByte
    decide
  · show _ < (n + 1).toNat + 10
    rw [frameHead_length, bodyLen_toNat hn, hps]
    omega

/-- With all but the last byte of a frame taken, the synchronizer holds its sealed header and its body. -/
theorem Sync.collecting_frameHead (y : Sync) : y.collecting (frameHead a t n ps) =
    { state := .body, hb := sealed (headerFields a n), bb := t :: ps ++ [hi8 (ck (t :: ps))], blen := n + 1 } := by
  rw [Sync.collecting_body (by simp)]
  rfl

end

/-- `s` after a frame with the header fields `headerFields a n`, type `t` and payload `ps` has been delivered. -/
def State.delivered (s : State) (a : Addr) (t n : Byte) (ps rest : List Byte) (ts : List Turn) : State :=
  { s with
    status := { s.status with rxfValid := true }
    rxhdr := { sof := 0x4B, proto := 0x00, src := a.src, dst := a.dst }
    rxinfo := { seq := a.seq, blen := n + 1, type := t }
    mem := memWriteRun s.mem rxbufBase ps
    sync := { state := .hunt, hb := [], bb := [], blen := n + 1 }
    rxs := rest
    schedule := ts }

/-- The last byte of a frame delivers it. -/
theorem rxByte_frameHead (s : State) (a : Addr) (t : Byte) {n : Byte} {ps : List Byte} (rest : List Byte)
    (ts : List Turn) (hn : n.toNat ≤ 254) (hps : ps.length = n.toNat) :
    rxByte (lo8 (ck (t :: ps))) (s.collecting (frameHead a t n ps) rest ts) = s.delivered a t n ps rest ts := by
  have hlen : (n + 1).toNat = (t :: ps).length := by rw [bodyLen_toNat hn, List.length_cons, hps]
  have hbody : (sealed (t :: ps)).take (n + 1).toNat = t :: ps := by rw [hlen, take_sealed]
  rw [State.collecting, Sync.collecting_frameHead,
    rxByte_delivers_sealed (bs := t :: ps) rfl ?_ hlen (List.cons_ne_nil _ _), toHunt_eq, deliver_eq]
  · simp only [withSync_sync, hbody]
    rfl
  · simp [sealed]

/-- The turns of a whole frame take all its bytes and deliver it. -/
theorem runSteps_frameOf {s : State} (hs : ReadyToHunt s) (a : Addr) (t : Byte) {n : Byte} {ps rest : List Byte}
    {ts : List Turn} (hn : n.toNat ≤ 254) (hps : ps.length = n.toNat) (hr : s.rxs = frameOf a t n ps ++ rest)
    (hd : SyncTurnsDue s (n.toNat + 11) ts) :
    runSteps (n.toNat + 11) s = .next (s.delivered a t n ps rest ts) := by
  have hlen : (frameHead a t n ps).length = n.toNat + 10 := by rw [frameHead_length, hps]
  rw [frameOf_eq_frameHead, List.append_assoc, List.singleton_append] at hr
  rw [SyncTurnsDue, List.replicate_succ', List.append_assoc, List.singleton_append, ← hlen] at hd
  have h := runSteps_nextByte hs (runSteps_collecting hs _ _ _ (frameBegins_frameHead a t hn hps) hr hd)
  rwa [hlen, rxByte_frameHead s a t rest ts hn hps] at h

/-- Settles O46: before its last byte a frame is only collected, and the last byte delivers it. -/
theorem sentFrameIsDeliveredUnchanged : Obligations.SentFrameIsDeliveredUnchanged := by
  intro a a' t n f hn h hf s rest ts hs hm hr hd
  obtain rfl : f = frameOf a.addr t n (txPayload a n) :=
    List.append_cancel_left (hf.symm.trans (txFrame_appends hn h))
  have hps := txPayload_length a n
  refine ⟨fun k hk => ?_, _, runSteps_frameOf hs a.addr t hn hps hr hd, rfl, rfl, rfl, rfl, rfl, rfl, rfl,
    fun i hi => ?_⟩
  · rw [frameOf_eq_frameHead, List.append_assoc] at hr
    have hlen : k ≤ (frameHead a.addr t n (txPayload a n)).length := by rw [frameHead_length, hps]; omega
    exact ⟨_, runSteps_collecting_take hs (frameBegins_frameHead a.addr t hn hps) hr hd hlen hk.le, rfl, rfl⟩
  · have hcell : (memRead s.mem (0x200 + i)).isSome = true := (wf_memRead_isSome hm _).mpr ⟨by omega, by omega⟩
    have hbyte : (txPayload a n)[i]? = some (memByte a.mem (0x100 + i)) := by
      simp [txPayload, memRun, hi, txbufBase]
    exact (memRead_memWriteRun_inside _ _ _ _ (by rwa [hps]) hcell).trans hbyte

end Sys2Proof.Machine
end

section
/-! PROOFS. The synchronizer: its two commands, when its turn takes a byte and what a byte does in each state, and its
runs on a frame as block checks, on sentinels, on a frame with one flipped bit and on vector RX-5. Rules of
42_synchronizer.md are cited by their number alone. -/

namespace Sys2Proof.Machine

/-! ### The commands of the synchronizer (R180, R181) -/

theorem exec_rxPop (s : State) : exec .rxPop s = .next (s.withStatus (setRxfValid false s.status)) := rfl

theorem exec_rxFlush (s : State) : exec .rxFlush s = .next (toHunt s) := rfl

theorem decode_of_opField_rxPop {w : Word} (h : opField w = 0x20) : decode w = .ok .rxPop := by simp [decode, h]

theorem decode_of_opField_rxFlush {w : Word} (h : opField w = 0x21) : decode w = .ok .rxFlush := by simp [decode, h]

/-- Settles O19: the word decodes to the command, whose meaning is one named update. -/
theorem rxPopReleasesTheFrame : Obligations.RxPopReleasesTheFrame := by
  refine ⟨exec_rxPop, fun s w ops ts h hop => ?_⟩
  rw [step_commandDue h, commandWrite, decode_of_opField_rxPop hop]
  rfl

/-- Settles O20: the word decodes to the command, whose meaning is the return to HUNT. -/
theorem rxFlushReturnsToHunt : Obligations.RxFlushReturnsToHunt := by
  refine ⟨exec_rxFlush, fun s w ops ts h hop => ?_⟩
  rw [step_commandDue h, commandWrite, decode_of_opField_rxFlush hop]
  rfl

/-! ### When the synchronizer's turn takes a byte (R161) -/

/-- The model's readiness is the rule's. -/
theorem rxReady_iff (s : State) :
    rxReady s = true ↔ s.sync.state ≠ .hunt ∨ (s.ctrl.rxEn = true ∧ s.status.rxfValid = false) := by
  simp [rxReady]

/-- No case of `RX_STATE` looks at the stream that the byte came from. -/
theorem rxByte_rxs (b : Byte) (s : State) : (rxByte b s).rxs = s.rxs := by
  obtain ⟨y, -, e⟩ | ⟨k, -, e⟩ | ⟨-, -, e⟩ := rxByte_outcome b s
  · rw [e, withSync_rxs]
  · rw [e]; rfl
  · rw [e]; rfl

/-- A synchronizer's turn that is due with no byte to take, or not ready for one, is used up (log 1). -/
theorem step_takesNoByte {s : State} {ts : List Turn} (hd : SyncDue s ts) (h : s.rxs = [] ∨ rxReady s = false) :
    step s = .next (s.withSchedule ts) := by
  have he : rxEnabled (s.withSchedule ts) = false := by
    show (!s.rxs.isEmpty && rxReady s) = false
    obtain hr | hr := h <;> simp [hr]
  rw [step_syncDue hd, syncTurn, he]
  rfl

/-- Settles O37: the turn takes a byte when there is one and the synchronizer is ready, and none otherwise. -/
theorem synchronizerStepsExactlyWhenEnabled : Obligations.SynchronizerStepsExactlyWhenEnabled := by
  intro s ts hd ready
  constructor
  · intro b bs hr hready
    exact ⟨step_takesByte hd hr ((rxReady_iff s).mpr hready), rxByte_rxs _ _⟩
  · intro h
    exact step_takesNoByte hd (h.imp_right fun hn => by rwa [← Bool.not_eq_true, rxReady_iff])

/-! ### A byte taken, the cases that end a frame or start none (R163, R168, R171, R173) -/

section
variable {s : State} {b : Byte}

/-- The sentinel is dropped without a trace (R163). -/
theorem rxByte_dropsSentinel (hst : s.sync.state = .hunt) : rxByte Config.syncByte s = s := by
  simp only [rxByte, hst]
  exact if_pos rfl

/-- The eighth byte of a header that fails its check discards the header (R168). -/
theorem rxByte_failsHeader (hst : s.sync.state = .header) (hl : (s.sync.hb ++ [b]).length = 8)
    (hv : headerValid (s.sync.hb ++ [b]) = false) : rxByte b s = toHunt (recordRxError .headerMismatch s) := by
  simp only [rxByte, hst]
  exact (if_pos hl).trans (if_neg (by simp [hv]))

/-- The last byte of a body ends the frame (R169). -/
theorem rxByte_endsBody (hst : s.sync.state = .body) (hl : (s.sync.bb ++ [b]).length = s.sync.blen.toNat + 2) :
    rxByte b s = bodyDone (s.sync.bb ++ [b]) s := by
  simp only [rxByte, hst]
  exact if_pos hl

end

/-! How a complete body ends: the checksum is tested before the length (R171 to R173, 60_exceptions.md R227). -/

section
variable {s : State} {bb : List Byte} {n : Nat}

theorem bodyDone_of_mismatch (hl : s.sync.blen.toNat = n)
    (hc : ck (bb.take n) ≠ be16 (bb.getD n 0) (bb.getD (n + 1) 0)) :
    bodyDone bb s = toHunt (recordRxError .bodyMismatch s) := by
  subst hl
  exact if_pos hc

theorem bodyDone_of_empty (hl : s.sync.blen.toNat = n) (hc : ck (bb.take n) = be16 (bb.getD n 0) (bb.getD (n + 1) 0))
    (hn : n = 0) : bodyDone bb s = toHunt (recordRxError .emptyBody s) := by
  subst hl
  exact (if_neg (not_not_intro hc)).trans (if_pos hn)

theorem bodyDone_of_valid (hl : s.sync.blen.toNat = n) (hc : ck (bb.take n) = be16 (bb.getD n 0) (bb.getD (n + 1) 0))
    (hn : n ≠ 0) : bodyDone bb s = toHunt (deliver bb s) := by
  subst hl
  exact (if_neg (not_not_intro hc)).trans (if_neg hn)

end

/-- The header check is the comparison of R166. -/
theorem headerValid_iff (hb : List Byte) :
    headerValid hb = true ↔ ck (hb.take 6) = be16 (hb.getD 6 0) (hb.getD 7 0) := beq_iff_eq

/-- Settles O38: the two cases of HUNT. -/
theorem huntDropsOnlyTheSentinel : Obligations.HuntDropsOnlyTheSentinel :=
  fun _ hst => ⟨rxByte_dropsSentinel hst, fun _ hb => rxByte_startsHeader hst hb⟩

/-- Settles O39: before the eighth byte, and at it by the header check. -/
theorem headerIsCollectedAndChecked : Obligations.HeaderIsCollectedAndChecked := by
  intro s b hst
  have hlen : (s.sync.hb ++ [b]).length = s.sync.hb.length + 1 := List.length_append
  refine ⟨fun hl => rxByte_collectsHeader hst (by omega), fun hl => ⟨fun hc => ?_, fun hc => ?_⟩⟩
  · exact rxByte_startsBody hst (hlen.trans hl) ((headerValid_iff _).mpr hc)
  · exact rxByte_failsHeader hst (hlen.trans hl) (by rwa [← Bool.not_eq_true, headerValid_iff])

/-- Settles O40: before the last byte, and at it by the body check and then by the length. -/
theorem bodyIsCollectedAndChecked : Obligations.BodyIsCollectedAndChecked := by
  intro s b hst bb n discarded
  have hlen : bb.length = s.sync.bb.length + 1 := List.length_append
  refine ⟨fun hl => rxByte_collectsBody hst (show bb.length ≠ n + 2 by omega), fun hl hc => ?_, fun hl hc hn => ?_⟩
  · exact (rxByte_endsBody hst (hlen.trans hl)).trans (bodyDone_of_mismatch rfl hc)
  · exact (rxByte_endsBody hst (hlen.trans hl)).trans (bodyDone_of_empty rfl hc hn)

/-- Settles O41: the delivery is one run of writes from `RXBUF[0]` on. -/
theorem deliveryPublishesTheWholeFrame : Obligations.DeliveryPublishesTheWholeFrame := by
  intro s b hm hst hb bb n hl hc hn
  have hlen : bb.length = n + 2 := List.length_append.trans hl
  have hpayload : ((bb.take n).drop 1).length = n - 1 := by simp [hlen]
  refine ⟨memWriteRun s.mem rxbufBase ((bb.take n).drop 1), ?_, fun i hi => ?_, fun a ha => ?_⟩
  · rw [rxByte_delivers hst hlen hc hn, toHunt_eq, deliver_eq]
  · have hn256 : n < 256 := s.sync.blen.isLt
    have hcell : (memRead s.mem (0x200 + i)).isSome = true := (wf_memRead_isSome hm _).mpr ⟨by omega, by omega⟩
    have hbyte : ((bb.take n).drop 1)[i]? = some (bb.getD (1 + i) 0) := by
      rw [List.getElem?_drop, List.getElem?_take_of_lt (by omega), List.getD_eq_getElem _ _ (by omega),
        List.getElem?_eq_getElem]
    exact (memRead_memWriteRun_inside _ _ _ _ (hi.trans_eq hpayload.symm) hcell).trans hbyte
  · exact memRead_memWriteRun_outside _ _ _ _ (by rwa [hpayload])

/-! ### The synchronizer and `CTRL` (R162) -/

/-- What a byte does does not depend on `CTRL`: each case is decided by the synchronizer's state and the byte. -/
theorem rxByte_withCtrl (b : Byte) (s : State) (c : Ctrl) : rxByte b (s.withCtrl c) = (rxByte b s).withCtrl c := by
  obtain ⟨hst, rfl, e⟩ | ⟨hst, hb, e⟩ | ⟨hst, hl, e⟩ | ⟨hst, hl, hv, e⟩ | ⟨hst, hl, hv, e⟩ | ⟨hst, hl, e⟩ |
    ⟨hst, hl, e⟩ := rxByte_cases b s
  · rw [e]; exact rxByte_dropsSentinel hst
  · rw [e]; exact rxByte_startsHeader hst hb
  · rw [e]; exact rxByte_collectsHeader hst hl
  · rw [e]; exact rxByte_startsBody hst hl hv
  · rw [e]; exact rxByte_failsHeader hst hl hv
  · rw [e]; exact rxByte_collectsBody hst hl
  · rw [e, rxByte_endsBody (s := s.withCtrl c) hst hl]
    obtain ⟨hc, e⟩ | ⟨hc, hn, e⟩ | ⟨hc, hn, e⟩ := bodyDone_cases (s.sync.bb ++ [b]) s
    · rw [e]; exact bodyDone_of_mismatch rfl hc
    · rw [e]; exact bodyDone_of_empty rfl hc hn
    · rw [e]; exact bodyDone_of_valid rfl hc hn

/-- Settles O42: mid-frame the synchronizer is ready whatever `CTRL` holds, and in HUNT with `RX_EN` clear it is not. -/
theorem receiverStopsOnlyAtAFrameBoundary : Obligations.ReceiverStopsOnlyAtAFrameBoundary := by
  constructor
  · intro s c ts hd hst
    by_cases hr : s.rxs = []
    · exact ⟨_, step_takesNoByte hd (.inl hr), step_takesNoByte (s := s.withCtrl c) hd (.inl hr),
        fun h => absurd hr h⟩
    · obtain ⟨b, bs, hr⟩ := List.exists_cons_of_ne_nil hr
      have hready (c' : Ctrl) : rxReady (s.withCtrl c') = true := (rxReady_iff _).mpr (.inl hst)
      have htail : bs = s.rxs.tail := (congrArg List.tail hr).symm
      refine ⟨_, step_takesByte hd hr (hready s.ctrl), ?_, fun _ => (rxByte_rxs _ _).trans htail⟩
      exact (step_takesByte (s := s.withCtrl c) hd hr (hready c)).trans
        (congrArg _ (rxByte_withCtrl b ((s.withSchedule ts).withRxs bs) c))
  · intro s ts hd hst hen
    obtain ⟨-, -, hstopped, -⟩ := statusReadsItsFields s
    exact ⟨step_takesNoByte hd (.inr (by simp [rxReady, hst, hen])), hstopped.trans (by simp [hst, hen])⟩

/-! ### Runs of sentinels and of whole frames (R163, R176) -/

/-- A run goes on from where its first `j` steps lead. -/
theorem runSteps_add_of_next {j : Nat} {s u : State} (h : runSteps j s = .next u) (k : Nat) :
    runSteps (j + k) s = runSteps k u := by
  induction j generalizing s with
  | zero =>
    obtain rfl := Host.Outcome.next.inj h
    rw [Nat.zero_add]
  | succ j ih =>
    rw [Nat.succ_add, runSteps]
    rw [runSteps] at h
    cases hs : step s with
    | next t =>
      rw [hs] at h
      exact ih h
    | fault r => simp [hs] at h
    | refused r => simp [hs] at h

/-- Settles O44, by induction on the sentinels. -/
theorem leadingSentinelsAreSkipped : Obligations.LeadingSentinelsAreSkipped := by
  intro k
  induction k with
  | zero =>
    rintro s rest ts - hd hr
    exact congrArg _ (collecting_nil hr hd).symm
  | succ k ih =>
    intro s rest ts hs hd hr
    have hstep := (step_takesByte hd hr ((rxReady_iff s).mpr (.inr hs.2))).trans
      (congrArg _ (rxByte_dropsSentinel (by exact hs.1)))
    rw [runSteps, hstep]
    exact ih _ _ _ hs rfl rfl

/-- Bytes of a header that is not complete begin a frame. -/
theorem frameBegins_of_length_lt {p : List Byte} (h0 : p.getD 0 0 ≠ Config.syncByte) (h8 : p.length < 8) :
    FrameBegins p :=
  ⟨fun _ => h0, fun h => absurd h (Nat.not_le_of_lt h8)⟩

/-- A header that passes its check and bytes of a body that is not complete begin a frame. -/
theorem frameBegins_append {hb p : List Byte} (h8 : hb.length = 8) (h0 : hb.getD 0 0 ≠ Config.syncByte)
    (hv : headerValid hb = true) (hl : p.length < (hb.getD 5 0).toNat + 2) : FrameBegins (hb ++ p) := by
  refine ⟨fun _ => ?_, fun _ => ⟨?_, ?_⟩⟩
  · rwa [List.getD_append _ _ _ _ (by omega)]
  · rwa [List.take_left' h8]
  · rw [List.getD_append _ _ _ _ (by omega), List.length_append]
    omega

/-- With a header and bytes of a body taken, the synchronizer holds the two apart. -/
theorem Sync.collecting_append {y : Sync} {hb p : List Byte} (h8 : hb.length = 8) :
    y.collecting (hb ++ p) = { state := .body, hb := hb, bb := p, blen := hb.getD 5 0 } := by
  rw [Sync.collecting_body (by simp [h8]), List.take_left' h8, List.drop_left' h8, List.getD_append _ _ _ _ (by omega)]

/-- While the bytes `p` of a frame's beginning are taken there is no event, and the turn after them is the case of the
next byte. -/
theorem runSteps_throughByte {s : State} (hs : ReadyToHunt s) {p rest : List Byte} {b : Byte} {ts : List Turn}
    (hf : FrameBegins p) (hr : s.rxs = p ++ [b] ++ rest) (hd : SyncTurnsDue s (p.length + 1) ts) :
    (∀ m, m < p.length + 1 → ∃ u, runSteps m s = .next u ∧ NoEvent s u) ∧
    runSteps (p.length + 1) s = .next (rxByte b (s.collecting p rest ts)) := by
  rw [List.append_assoc] at hr
  refine ⟨fun m hm => ⟨_, runSteps_collecting_take hs hf hr hd (Nat.le_of_lt_succ hm) hm.le, rfl, rfl⟩, ?_⟩
  rw [SyncTurnsDue, List.replicate_succ', List.append_assoc, List.singleton_append] at hd
  exact runSteps_nextByte hs (runSteps_collecting hs p _ _ hf hr hd)

/-- A block of at least one byte ends with a byte. -/
theorem exists_lastByte {bs : List Byte} {n : Nat} (h : bs.length = n + 1) :
    ∃ p b, p.length = n ∧ bs = p ++ [b] := by
  obtain rfl | ⟨p, b, rfl⟩ := List.eq_nil_or_concat' bs
  · simp at h
  · exact ⟨p, b, by simpa using h, rfl⟩

/-- `s` after a header that failed its check, with `rest` still to come (R168). -/
def State.afterFailedHeader (s : State) (rest : List Byte) (ts : List Turn) : State :=
  toHunt (recordRxError .headerMismatch ((s.withSchedule ts).withRxs rest))

/-- The next frame may start at once (R168). -/
theorem ReadyToHunt.afterFailedHeader {s : State} (hs : ReadyToHunt s) (rest : List Byte) (ts : List Turn) :
    ReadyToHunt (s.afterFailedHeader rest ts) := ⟨rfl, hs.2⟩

/-- A header that fails its check: no event before its last byte, and there one header mismatch (R168). -/
theorem runSteps_failedHeader {s : State} (hs : ReadyToHunt s) {hb rest : List Byte} {ts : List Turn}
    (h8 : hb.length = 8) (h0 : hb.getD 0 0 ≠ Config.syncByte) (hv : headerValid hb = false)
    (hr : s.rxs = hb ++ rest) (hd : SyncTurnsDue s 8 ts) :
    (∀ m, m < 8 → ∃ u, runSteps m s = .next u ∧ NoEvent s u) ∧
    runSteps 8 s = .next (s.afterFailedHeader rest ts) := by
  obtain ⟨p, b, h7, rfl⟩ := exists_lastByte h8
  have hne : p ≠ [] := by
    rintro rfl
    simp at h7
  rw [List.getD_append _ _ _ _ (by omega)] at h0
  have key := runSteps_throughByte hs (frameBegins_of_length_lt h0 (by omega)) hr (by rwa [h7])
  have hlast : rxByte b (s.collecting p rest ts) = s.afterFailedHeader rest ts := by
    rw [State.collecting, Sync.collecting_header hne (by omega)]
    exact rxByte_failsHeader rfl h8 hv
  rwa [h7, hlast] at key

/-- `s` with a whole body taken but for its last byte, after the header `hb`. -/
def State.atLastByte (s : State) (hb body rest : List Byte) (ts : List Turn) : State :=
  ((s.withSchedule ts).withRxs rest).withSync { state := .body, hb := hb, bb := body.dropLast, blen := hb.getD 5 0 }

/-- A header that passes its check and a whole body: no event before the last byte, and there the end of the body
(R169). -/
theorem runSteps_wholeBody {s : State} (hs : ReadyToHunt s) {hb body rest : List Byte} {ts : List Turn} {n : Nat}
    (h8 : hb.length = 8) (h0 : hb.getD 0 0 ≠ Config.syncByte) (hv : headerValid hb = true)
    (hn : (hb.getD 5 0).toNat = n) (hl : body.length = n + 2) (hr : s.rxs = hb ++ body ++ rest)
    (hd : SyncTurnsDue s (n + 10) ts) :
    (∀ m, m < n + 10 → ∃ u, runSteps m s = .next u ∧ NoEvent s u) ∧
    runSteps (n + 10) s = .next (bodyDone body (s.atLastByte hb body rest ts)) := by
  subst hn
  obtain ⟨p, b, hp, rfl⟩ := exists_lastByte hl
  have hlen : (hb ++ p).length + 1 = (hb.getD 5 0).toNat + 10 := by
    rw [List.length_append]
    omega
  rw [← List.append_assoc hb] at hr
  have key := runSteps_throughByte hs (frameBegins_append h8 h0 hv (by omega)) hr (by rwa [hlen])
  rw [hlen, State.collecting, Sync.collecting_append h8, rxByte_endsBody rfl hl] at key
  rwa [State.atLastByte, List.dropLast_concat]

/-- Settles O45: the failed header, and the three ends of a whole body. -/
theorem byteStepsAgreeWithBlockReads : Obligations.ByteStepsAgreeWithBlockReads := by
  intro s hb body rest ts hs h8 h0 n hunting
  refine ⟨fun hv hr hd => ?_, fun hv hl hr hd => ?_⟩
  · obtain ⟨-, hrun⟩ := runSteps_failedHeader hs h8 h0 hv hr hd
    rw [hrun]
    rfl
  · obtain ⟨-, hrun⟩ := runSteps_wholeBody hs h8 h0 hv rfl hl hr hd
    have hblen : (s.atLastByte hb body rest ts).sync.blen.toNat = n := rfl
    refine ⟨fun hc => ?_, fun hc hn => ?_, fun hc hn => ?_⟩
    · rw [hrun, bodyDone_of_mismatch hblen hc, toHunt_eq, recordRxError_eq]; rfl
    · rw [hrun, bodyDone_of_empty hblen hc hn, toHunt_eq, recordRxError_eq]; rfl
    · rw [hrun, bodyDone_of_valid hblen hc hn, toHunt_eq, deliver_eq]; rfl

/-! ### One flipped bit (R179) -/

theorem flipBit_append_left {as bs : List Byte} {i : Nat} (h : i < as.length) (j : Nat) :
    flipBit (as ++ bs) i j = flipBit as i j ++ bs := by
  rw [← List.take_append_drop as.length (flipBit (as ++ bs) i j), flipBit, List.take_modify, List.take_left,
    List.drop_modify_of_lt _ _ _ _ h, List.drop_left, flipBit]

theorem flipBit_append_right {as bs : List Byte} {i : Nat} (h : as.length ≤ i) (j : Nat) :
    flipBit (as ++ bs) i j = as ++ flipBit bs (i - as.length) j := by
  rw [← List.take_append_drop as.length (flipBit (as ++ bs) i j), flipBit, List.take_modify, List.take_left,
    List.drop_modify_of_ge _ _ _ _ h, List.drop_left, List.modify_eq_self h, flipBit]

@[simp] theorem flipBit_length (bs : List Byte) (i j : Nat) : (flipBit bs i j).length = bs.length :=
  List.length_modify _ _ _

/-- No flip of one bit makes `SOF` the sentinel: the two differ in four bits. -/
theorem getD_zero_flipBit_ne_syncByte (bs : List Byte) (i : Nat) {j : Nat} (hj : j < 8) :
    (flipBit (Config.sof :: bs) i j).getD 0 0 ≠ Config.syncByte := by
  cases i with
  | zero =>
    show Config.sof ^^^ 1#8 <<< j ≠ Config.syncByte
    interval_cases j <;> decide
  | succ i =>
    show Config.sof ≠ Config.syncByte
    decide

theorem headerValid_flipBit_sealed {bs : List Byte} (h : bs.length = 6) {i j : Nat} (hi : i < 8) (hj : j < 8) :
    headerValid (flipBit (sealed bs) i j) = false := by
  have hc := singleBitFlipFailsTheCheck bs i j (by omega) hj
  rw [h] at hc
  rwa [← Bool.not_eq_true, headerValid_iff]

/-- Settles O47: the flipped header fails its check, and so does the flipped body after the header as sent. -/
theorem flippedFrameIsNeverDelivered : Obligations.FlippedFrameIsNeverDelivered := by
  intro a a' t n f i j hn h hf hi hj s rest ts hs hr k hd
  obtain rfl : f = frameOf a.addr t n (txPayload a n) :=
    List.append_cancel_left (hf.symm.trans (txFrame_appends hn h))
  have h8 : (sealed (headerFields a.addr n)).length = 8 := rfl
  by_cases hi8 : i < 8
  · simp only [k, if_pos hi8] at hd ⊢
    rw [frameOf, flipBit_append_left (h8 ▸ hi8), List.append_assoc] at hr
    have hstart : (flipBit (sealed (headerFields a.addr n)) i j).getD 0 0 ≠ Config.syncByte :=
      getD_zero_flipBit_ne_syncByte _ i hj
    have hfails : headerValid (flipBit (sealed (headerFields a.addr n)) i j) = false :=
      headerValid_flipBit_sealed rfl hi8 hj
    obtain ⟨hquiet, hrun⟩ := runSteps_failedHeader hs (by rw [flipBit_length, h8]) hstart hfails hr hd
    exact ⟨hquiet, _, hrun, rfl, rfl, rfl⟩
  · simp only [k, if_neg hi8] at hd ⊢
    have hlen : (t :: txPayload a n).length = n.toNat + 1 := by rw [List.length_cons, txPayload_length]
    rw [frameOf, flipBit_append_right (h8 ▸ Nat.le_of_not_lt hi8), h8] at hr
    obtain ⟨hquiet, hrun⟩ := runSteps_wholeBody hs h8 (show Config.sof ≠ Config.syncByte by decide)
      (headerValid_sealed rfl) (bodyLen_toNat hn) (by rw [flipBit_length, sealed_length, hlen]) hr hd
    have hc := singleBitFlipFailsTheCheck (t :: txPayload a n) (i - 8) j (by omega) hj
    rw [hlen] at hc
    exact ⟨hquiet, _, hrun.trans (congrArg _ (bodyDone_of_mismatch (bodyLen_toNat hn) hc)), rfl, rfl, rfl⟩

/-! ### Resynchronisation after a failed header (R177) -/

/-- Blocks of 8 bytes that each fail the header check are discarded one after another, each with one header mismatch. -/
theorem runSteps_failedHeaders {rest : List Byte} {ts : List Turn} (hbs : List (List Byte))
    (h : ∀ hb ∈ hbs, hb.length = 8 ∧ hb.getD 0 0 ≠ Config.syncByte ∧ headerValid hb = false) :
    ∀ s : State, ReadyToHunt s → s.rxs = hbs.flatten ++ rest → SyncTurnsDue s (8 * hbs.length) ts →
    ∃ u, runSteps (8 * hbs.length) s = .next u ∧ ReadyToHunt u ∧ u.rxs = rest ∧ u.schedule = ts ∧
      u.errcnt = s.errcnt + BitVec.ofNat 32 hbs.length ∧
      u.status = { s.status with herr := s.status.herr || !hbs.isEmpty } := by
  induction hbs with
  | nil =>
    intro s hs hr hd
    exact ⟨s, rfl, hs, hr, hd, by simp, by simp⟩
  | cons hb hbs ih =>
    intro s hs hr hd
    obtain ⟨⟨h8, h0, hv⟩, hall⟩ := List.forall_mem_cons.mp h
    rw [List.flatten_cons, List.append_assoc] at hr
    rw [List.length_cons, Nat.mul_succ, Nat.add_comm, SyncTurnsDue, List.replicate_add, List.append_assoc] at hd
    obtain ⟨-, hrun⟩ := runSteps_failedHeader hs h8 h0 hv hr hd
    obtain ⟨u, hu, hready, hrest, hsched, hcnt, hstatus⟩ := ih hall _ (hs.afterFailedHeader _ _) rfl rfl
    refine ⟨u, ?_, hready, hrest, hsched, ?_, ?_⟩
    · rw [List.length_cons, Nat.mul_succ, Nat.add_comm, runSteps_add_of_next hrun, hu]
    · rw [hcnt, List.length_cons, Nat.add_comm, BitVec.ofNat_add, ← BitVec.add_assoc]
      rfl
    · rw [hstatus]
      simp [State.afterFailedHeader, toHunt, recordRxError, setRxErrBit]

/-- What the receiver takes for headers in RX-5: the corrupted one, and the next 24 bytes cut into blocks of 8. -/
def rx5Headers : List (List Byte) :=
  [[0x4B, 0x00, 0xC1, 0xFF, 0x00, 0x01, 0x7D, 0x35], [0x22, 0x37, 0x11, 0x4B, 0x00, 0xC0, 0xFF, 0x00],
    [0x01, 0x7D, 0x35, 0x22, 0x37, 0x11, 0x4B, 0x00], [0xC0, 0xFF, 0x00, 0x01, 0x7D, 0x35, 0x22, 0x37]]

/-- The addresses of RX-5's valid frame. -/
def rx5Addr : Addr := { src := 0xC0, dst := 0xFF, seq := 0x00 }

/-- RX-5's valid frame is the framer's, of type `0x22` with an empty payload. -/
theorem frameOf_rx5Addr :
    frameOf rx5Addr 0x22 0 [] = [0x4B, 0x00, 0xC0, 0xFF, 0x00, 0x01, 0x7D, 0x35, 0x22, 0x37, 0x11] := by
  decide +kernel

/-- After the four headers of RX-5 and a sentinel the receiver hunts again. -/
theorem runSteps_rx5Headers {s : State} (hs : ReadyToHunt s) {rest : List Byte} {ts : List Turn}
    (hr : s.rxs = rx5Headers.flatten ++ 0x11 :: rest) (hd : SyncTurnsDue s 33 ts) :
    ∃ u, runSteps 33 s = .next u ∧ ReadyToHunt u ∧ u.rxs = rest ∧ u.schedule = ts ∧
      u.errcnt = s.errcnt + 4 ∧ u.status = { s.status with herr := true } := by
  obtain ⟨u, hu, hready, hrest, hsched, hcnt, hstatus⟩ :=
    runSteps_failedHeaders (ts := .sync :: ts) rx5Headers (by decide +kernel) s hs hr hd
  have hskip := leadingSentinelsAreSkipped 1 u rest ts hready hsched hrest
  refine ⟨_, (runSteps_add_of_next hu 1).trans hskip, hready, rfl, rfl, hcnt, ?_⟩
  rw [hstatus]
  simp [rx5Headers]

/-- Settles O49: after the four failed headers and the sentinel that ends the second copy, the third copy is a frame
from its first byte on. -/
theorem corruptedHeaderCostsTwoGoodFrames : Obligations.CorruptedHeaderCostsTwoGoodFrames := by
  unfold Obligations.CorruptedHeaderCostsTwoGoodFrames
  intro good bad s hs _ hr hd
  obtain ⟨u, hu, hready, hrest, hsched, hcnt, hstatus⟩ :=
    runSteps_rx5Headers (rest := good) (ts := List.replicate 11 .sync) hs hr hd
  have hframe : u.rxs = frameOf rx5Addr 0x22 0 [] ++ [] := by rw [hrest, frameOf_rx5Addr, List.append_nil]
  have hturns : SyncTurnsDue u 11 [] := hsched
  have hlast := runSteps_frameOf hready rx5Addr 0x22 (n := 0) (by decide) rfl hframe hturns
  rw [frameOf_eq_frameHead, List.append_assoc] at hframe
  have hquiet := runSteps_collecting_take hready (frameBegins_frameHead rx5Addr 0x22 (n := 0) (by decide) rfl) hframe
    hturns (k := 10) (by simp) (by decide)
  have hhdr : rxhdrWord { sof := 0x4B, proto := 0x00, src := 0xC0, dst := 0xFF } = 0xFFC0004B := by decide
  have hinfo : rxinfoWord { seq := 0x00, blen := 0 + 1, type := 0x22 } = 0x00220100 := by decide
  refine ⟨⟨_, (runSteps_add_of_next hu 10).trans hquiet, hready.2.2, hcnt⟩, _,
    (runSteps_add_of_next hu 11).trans hlast, ?_, hcnt, hhdr, hinfo, rfl⟩
  show { u.status with rxfValid := true } = _
  rw [hstatus]

end Sys2Proof.Machine
end

section
/-! PROOFS. The control block: the host's writes to `TXBUF`, `CTRL` and `ADDR`, and the commands `NOP`, `ERR_CLR` and
`ST_CLR`. Rules of 43_control.md are cited by their number alone. -/

namespace Sys2Proof.Machine

/-! ### The write to `TXBUF` (R205) -/

/-- A legal buffer write puts each lane of its value at its address (20_memory.md R64). -/
theorem memRead_writeBuf_inside {m : Memory} (hm : m.wf = true) {a n j : Nat} (v : Word) (hn : n = 1 ∨ n = 4) (hj : j < n)
    (h1 : 0x100 ≤ a) (h2 : a + j < 0x300) :
    memRead (writeBuf m a n v) (a + j) = some (v.extractLsb' (8 * j) 8) := by
  have hcell : (memRead m (a + j)).isSome = true := (wf_memRead_isSome hm _).mpr ⟨by omega, h2⟩
  obtain rfl | rfl := hn
  · obtain rfl : j = 0 := by omega
    exact memRead_memWrite_same m a (lane v 0) hcell
  · have hlane : (lanesOfWord v)[j]? = some (lane v j) := by interval_cases j <;> rfl
    exact (memRead_memWriteRun_inside m a (lanesOfWord v) j hj hcell).trans hlane

/-- Settles O31: the memory is that of the buffer write, read inside its range and outside it. -/
theorem txbufWriteSetsTheAddressedBytes : Obligations.TxbufWriteSetsTheAddressedBytes := by
  intro s addr n v ops ts hm h1 h2 hn h
  have hw : n = 1 ∨ n = 4 := hn.imp_right And.left
  have hstep := step_txbufWrite h (.inr ⟨h1, by omega, hn⟩) h1 h2
  refine ⟨_, hstep, fun j hj => ?_, fun a ha => memRead_writeBuf_outside hw ha⟩
  exact memRead_writeBuf_inside hm v hw hj h1 (by omega)

/-! ### The writes to `CTRL` and `ADDR` (R201, R204) -/

/-- `CTRL` keeps the four low bits of a value and reads its reserved bits as 0. -/
theorem ctrlWord_ctrlOfWord (v : Word) : ctrlWord (ctrlOfWord v) = v &&& 0x0000000F := by
  apply BitVec.eq_of_getLsbD_eq
  intro i hi
  simp only [ctrlWord, BitVec.getLsbD_or, getLsbD_bitAt]
  interval_cases i <;> simp [ctrlOfWord]

/-- `ADDR` keeps the three low bytes of a value and reads its reserved bits as 0. -/
theorem addrWord_addrOfWord (v : Word) : addrWord (addrOfWord v) = v &&& 0x00FFFFFF := by
  apply BitVec.eq_of_getLsbD_eq
  intro i hi
  interval_cases i <;> simp [addrWord, addrOfWord, atLane, lane]

/-- Settles O29: the write is one named update, and the register reads back what it kept of the value. -/
theorem ctrlWriteSetsItsFields : Obligations.CtrlWriteSetsItsFields :=
  fun _ v _ _ h => ⟨step_registerWrite (r := .ctrl) h, ctrlWord_ctrlOfWord v⟩

/-- Settles O30: the write is one named update, and the register reads back what it kept of the value. -/
theorem addrWriteSetsItsFields : Obligations.AddrWriteSetsItsFields :=
  fun _ v _ _ h => ⟨step_registerWrite (r := .addr) h, addrWord_addrOfWord v⟩

/-! ### The control commands (R200, R202, R203) -/

theorem exec_nop (s : State) : exec .nop s = .next s := rfl

theorem exec_errClr (s : State) : exec .errClr s = .next (s.withErrcnt 0) := rfl

theorem exec_stClr (s : State) : exec .stClr s = .next (s.withStatus (clearSticky s.status)) := rfl

theorem decode_of_opField_nop {w : Word} (h : opField w = 0x00) : decode w = .ok .nop := by simp [decode, h]

theorem decode_of_opField_errClr {w : Word} (h : opField w = 0x30) : decode w = .ok .errClr := by simp [decode, h]

theorem decode_of_opField_stClr {w : Word} (h : opField w = 0x31) : decode w = .ok .stClr := by simp [decode, h]

/-- A due command word that decodes to `i` is `i` on the state with the write answered (10_state.md R26). -/
theorem step_commandDue_of_decode {s : State} {w : Word} {i : Instr} {ops : List HostOp} {ts : List Turn}
    (h : CommandDue s w ops ts) (hd : decode w = .ok i) : step s = exec i (answered s .done ops ts) :=
  cmdWriteRunsTheDecodedCommand.1 s w i ops ts h hd

/-- Settles O21: whatever its operand fields, the word decodes to the command that leaves the state as it is. -/
theorem nopChangesNothing : Obligations.NopChangesNothing :=
  ⟨exec_nop, fun _ _ _ _ h hop => step_commandDue_of_decode h (decode_of_opField_nop hop)⟩

/-- Settles O22: the word decodes to the command, whose meaning is one named update. -/
theorem errClrClearsTheCounter : Obligations.ErrClrClearsTheCounter :=
  ⟨exec_errClr, fun _ _ _ _ h hop => step_commandDue_of_decode h (decode_of_opField_errClr hop)⟩

/-- Settles O23: the word decodes to the command, whose meaning is one named update. -/
theorem stClrClearsTheStickyFields : Obligations.StClrClearsTheStickyFields :=
  ⟨exec_stClr, fun _ _ _ _ h hop => step_commandDue_of_decode h (decode_of_opField_stClr hop)⟩

end Sys2Proof.Machine
end

section
/-! PROOFS. Errors and the interrupt: what can stop a step, and the level of `IRQ`. Rules of 60_exceptions.md are cited
by their number alone. -/

namespace Sys2Proof.Machine

/-! ### What stops a step (R222, R228) -/

/-- A host turn answers, or is the BusError of a pending access that 20_memory.md R62 does not allow: the host's other
two operations read a register (30_encoding.md R104), which is legal. -/
theorem hostTurn_completes_or_busError (s : State) :
    (∃ t, hostTurn s = .next t) ∨
    ∃ a ops, s.host = .access a :: ops ∧ ¬ LegalByR62 (accessAddr a) (accessWidth a) ∧
      hostTurn s = .fault (.busError (accessAddr a)) := by
  unfold hostTurn
  split
  · exact .inl ⟨s, rfl⟩
  · rename_i a ops ho
    by_cases hl : LegalByR62 (accessAddr a) (accessWidth a)
    · exact .inl (hostAccess_completes hl _)
    · exact .inr ⟨a, ops, ho, hl, hostAccess_busError hl _⟩
  · exact .inl ⟨_, hostAccess_registerRead .status _⟩
  · exact .inl ⟨_, hostAccess_registerRead .rxinfo _⟩

theorem hostTurn_ne_refused (s : State) (r : Refusal) : hostTurn s ≠ .refused r := by
  obtain ⟨t, ht⟩ | ⟨a, ops, -, -, hf⟩ := hostTurn_completes_or_busError s
  · simp [ht]
  · simp [hf]

/-- Only the host's turn could be refused: the synchronizer, the line and the reset input always move. -/
theorem step_ne_refused (s : State) (r : Refusal) : step s ≠ .refused r := by
  cases hs : s.schedule with
  | nil =>
    rw [step_unscheduled hs, unscheduledTurn]
    split
    · exact nofun
    · exact hostTurn_ne_refused s r
  | cons u us =>
    rw [step_scheduled hs]
    cases u with
    | host => exact hostTurn_ne_refused _ r
    | _ => exact nofun

/-- Settles O26: a fault is of the host's turn, and a host turn faults only on an illegal access. -/
theorem onlyBusErrorsStopTheMachine : Obligations.OnlyBusErrorsStopTheMachine := by
  refine fun s => ⟨step_ne_refused s, fun addr h => ?_⟩
  obtain ⟨hmoves, us, hfault⟩ := step_fault_cases h
  obtain ⟨t, ht⟩ | ⟨a, ops, ho, hl, hf⟩ := hostTurn_completes_or_busError (s.withSchedule us)
  · simp [ht] at hfault
  · rw [hf] at hfault
    cases hfault
    exact ⟨a, ops, hmoves, ho, rfl, hl⟩

/-! ### The interrupt (R230, R231) -/

theorem irq_iff (s : State) : irq s = true ↔
    (s.status.rxfValid = true ∧ s.ctrl.rxie = true) ∨
    ((s.status.herr = true ∨ s.status.berr = true ∨ s.status.lerr = true) ∧ s.ctrl.errie = true) := by
  simp [irq, or_assoc]

/-- A command error is no source of the interrupt (R224). -/
theorem irq_raiseCmdError (c : CmdErrCode) (s : State) : irq (raiseCmdError c s) = irq s := rfl

/-- Settles O36: the formula of R230 on the status that each command leaves. -/
theorem interruptLevelFollowsItsSources : Obligations.InterruptLevelFollowsItsSources := by
  refine ⟨irq_iff, fun s u h => ?_, fun s u h => ?_, fun s c => irq_raiseCmdError c s⟩
  · rw [exec_rxPop] at h
    cases h
    simp [irq_iff]
  · rw [exec_stClr] at h
    cases h
    simp [irq_iff]

end Sys2Proof.Machine
end

section
/-! PROOFS. Reset: what the host reads in the reset state, and what the reset input sets and keeps. Rules of
70_reset_and_hazards.md are cited by their number alone. -/

namespace Sys2Proof.Machine

/-- After a reset each buffer address holds its draw (R251, 93_implementation_defined.md I1). -/
theorem memRead_drawn (k : Nat) {a : Nat} (hlo : 0x100 ≤ a) (hhi : a < 0x300) :
    memRead (Memory.drawn k) a = some (Config.bufDraw k a) :=
  List.lookup_graph (Config.bufDraw k) (List.mem_range'_1.mpr ⟨hlo, hhi⟩)

/-- `ADDR` with sequence number 0 reads its destination above its source (10_state.md R29). -/
theorem addrWord_of_seq_zero (src dst : Byte) :
    addrWord { src := src, dst := dst, seq := 0 } = dst.setWidth 32 <<< 8 ||| src.setWidth 32 := by
  simp [addrWord, atLane, BitVec.or_comm]

/-- Settles O52: every register but `ADDR` is a constant of the reset state, and each buffer byte is its draw. -/
theorem resetStateReadsAsTheSpecSays : Obligations.ResetStateReadsAsTheSpecSays := by
  refine ⟨by decide, by decide, rfl, by decide, rfl, ?addr, by decide, by decide, rfl, rfl, fun a => memRead_drawn 0⟩
  case addr => exact addrWord_of_seq_zero Config.srcReset Config.dstReset

/-- Settles O53: the step is the reset input, whose frame is the streams, the host and the rest of the schedule. -/
theorem resetInputKeepsTheLineStreams : Obligations.ResetInputKeepsTheLineStreams := by
  intro s ts h
  refine ⟨assertReset (s.withSchedule ts), step_scheduled h, ?_⟩
  exact ⟨rfl, rfl, rfl, rfl, rfl, rfl, rfl, rfl, rfl, rfl, rfl, rfl, fun a => memRead_drawn (s.draws + 1)⟩

end Sys2Proof.Machine
end
